-- ==== Sys2Proof/Word.lean ====
section
/-!
DEFINITION. The word types of the block: the 32-bit host data word (spec/00_scope.md R6), the 80-bit
frame register (R8) and the host register offset (R80).
-/

namespace Sys2Proof

/-- The host data word, 32 bits; bit `i` of the bus word is bit `i` of the register (R82). -/
abbrev Word := BitVec 32

/-- An LTC frame `F[0..79]`: bit `i` of the vector is `F[i]`, and `F[0]` is transmitted first (R8, R129). -/
abbrev FrameBits := BitVec 80

/-- A byte offset in the host register space (R80). -/
abbrev Offset := BitVec 8

end Sys2Proof
end

