-- ==== Sys2Proof/Syntax.lean ====
section
/-!
DEFINITION. The operations of the block, one constructor per row of spec/opcode_table.json, and the
host accesses that carry them (spec/30_encoding.md R110 to R115).
-/

namespace Sys2Proof

/-- The nine rows of spec/opcode_table.json. -/
inductive Instr where
  /-- NOP, a command word (R178). -/
  | nop
  /-- START, a command word (R341). -/
  | start
  /-- TC_LOAD, a command word (R205). -/
  | tcLoad
  /-- TC_ADVANCE, a command word (R206). -/
  | tcAdvance
  /-- ASSEMBLE, a command word (R270). -/
  | assemble
  /-- UB_MERGE, a command word; bit `g` of the mask says that group `g` is supplied (R112, R241). -/
  | ubMerge (m : BitVec 4)
  /-- REG_READ, a bus transaction (R170). -/
  | regRead (off : Offset)
  /-- REG_WRITE, a bus transaction (R172); at offset 0x00 it is a command. -/
  | regWrite (off : Offset) (v : Word)
  /-- EMIT, the engine's step; it has no host encoding (R115, R345). -/
  | emit
deriving DecidableEq, Repr

/-- One host access, in either of the two formats of spec/opcode_table.json (log entry 12). -/
inductive Access where
  /-- Format CMD: the data word of a whole-word write to `CMD`, offset 0x00 (R110). -/
  | cmd (v : Word)
  /-- Format BUS: the width in bytes, the descriptor with WE in bit 8 and OFFSET in bits 7 to 0,
  and the write data, which a read does not use (R81, R115). -/
  | bus (bytes : Nat) (desc : BitVec 9) (data : Word)
deriving DecidableEq, Repr

end Sys2Proof
end

