-- ==== Sys2Proof/WellFormed.lean ====
section
/-!
DEFINITION. Which instructions are well formed: a register offset is a multiple of 4
(spec/20_memory.md R81, spec/40_host_access.md R170). Every other operand has exactly the width of
its field, so nothing else can be ill formed.
-/

namespace Sys2Proof

/-- `off mod 4 = 0` (R81). -/
def Offset.aligned (off : Offset) : Bool := off.toNat % 4 == 0

/-- The check on an instruction's operands. -/
def Instr.wellFormed : Instr → Bool
  | .nop => true
  | .start => true
  | .tcLoad => true
  | .tcAdvance => true
  | .assemble => true
  | .ubMerge _ => true
  | .regRead off => Offset.aligned off
  | .regWrite off _ => Offset.aligned off
  | .emit => true

end Sys2Proof
end

