-- ==== Sys2Proof/Decode.lean ====
section
/-!
DEFINITION. Decoding a host access to an instruction, total and rejecting by name, and the encoder
(spec/30_encoding.md R110 to R115, spec/20_memory.md R81).
-/

namespace Sys2Proof

/-- Why an access decodes to no instruction. -/
inductive DecodeError where
  /-- Opcode 0x06 to 0xFF (R113). -/
  | reservedOpcode
  /-- `CMD[31:16]`, or an `ARG` bit the opcode does not use, is not 0 (R112). -/
  | reservedBits
  /-- An access of a width other than 32 bits (R81). -/
  | accessWidth
  /-- An offset that is not a multiple of 4 (R81). -/
  | misaligned
deriving DecidableEq, Repr

/-- `OP` = bits [7:0] of a command word (R110). -/
def cmdOp (v : Word) : BitVec 8 := v.extractLsb' 0 8

/-- `ARG` = bits [15:8] of a command word (R110). -/
def cmdArg (v : Word) : BitVec 8 := v.extractLsb' 8 8

/-- Bits [31:16] of a command word, reserved (R110). -/
def cmdHi (v : Word) : BitVec 16 := v.extractLsb' 16 16

/-- The mask `m` of UB_MERGE, `ARG[3:0]` (R112). -/
def argMask (arg : BitVec 8) : BitVec 4 := arg.extractLsb' 0 4

/-- `ARG[7:4]`, which UB_MERGE needs to be 0 (R112). -/
def argHigh (arg : BitVec 8) : BitVec 4 := arg.extractLsb' 4 4

/-- The opcode map for opcodes without an argument (R111). -/
def plainCommand (op : BitVec 8) : Except DecodeError Instr :=
  if op = 0x00 then .ok .nop
  else if op = 0x01 then .ok .start
  else if op = 0x02 then .ok .tcLoad
  else if op = 0x03 then .ok .tcAdvance
  else if op = 0x04 then .ok .assemble
  else .error .reservedOpcode

/-- Format CMD (R110 to R113), the checks in the order of R176. -/
def decodeCommand (v : Word) : Except DecodeError Instr :=
  if 0x05 < (cmdOp v).toNat then .error .reservedOpcode
  else if cmdHi v ≠ 0 then .error .reservedBits
  else if cmdOp v = 0x05 then
    if argHigh (cmdArg v) ≠ 0 then .error .reservedBits else .ok (.ubMerge (argMask (cmdArg v)))
  else if cmdArg v ≠ 0 then .error .reservedBits
  else plainCommand (cmdOp v)

/-- `WE` of a bus descriptor, bit 8 (R115). -/
def descWe (desc : BitVec 9) : Bool := desc.getLsbD 8

/-- `OFFSET` of a bus descriptor, bits [7:0] (R115). -/
def descOffset (desc : BitVec 9) : Offset := desc.extractLsb' 0 8

/-- Format BUS (R81, R115): whole words at aligned offsets only. -/
def decodeBus (bytes : Nat) (desc : BitVec 9) (data : Word) : Except DecodeError Instr :=
  if bytes ≠ 4 then .error .accessWidth
  else if Offset.aligned (descOffset desc) = false then .error .misaligned
  else if descWe desc then .ok (.regWrite (descOffset desc) data)
  else .ok (.regRead (descOffset desc))

/-- The decoder. -/
def decode : Access → Except DecodeError Instr
  | .cmd v => decodeCommand v
  | .bus bytes desc data => decodeBus bytes desc data

/-- A command word `{0, ARG, OP}` (R110). -/
def commandWord (op arg : BitVec 8) : Word := 0#16 ++ arg ++ op

/-- A bus descriptor `{WE, OFFSET}` (R115). -/
def busDesc (we : Bool) (off : Offset) : BitVec 9 := BitVec.ofBool we ++ off

/-- The encoder: the access that carries an instruction, in the format of its row of
spec/opcode_table.json; EMIT has none (R115). -/
def encode : Instr → Option Access
  | .nop => some (.cmd (commandWord 0x00 0x00))
  | .start => some (.cmd (commandWord 0x01 0x00))
  | .tcLoad => some (.cmd (commandWord 0x02 0x00))
  | .tcAdvance => some (.cmd (commandWord 0x03 0x00))
  | .assemble => some (.cmd (commandWord 0x04 0x00))
  | .ubMerge m => some (.cmd (commandWord 0x05 (0#4 ++ m)))
  | .regRead off => some (.bus 4 (busDesc false off) 0)
  | .regWrite off v => some (.bus 4 (busDesc true off) v)
  | .emit => none

/-- The access that a row's bits stand for: 32 bits are a command word; 9 bits, in whole bytes 16,
are a bus descriptor, whose data word lies above them and is 0 (log entry 13). -/
def accessOfTableWord (nbits w : Nat) : Access :=
  if nbits = 32 then .cmd (BitVec.ofNat 32 w) else .bus 4 (BitVec.ofNat 9 w) 0

/-- Whether `nbits` and `w` have the shape of a row: no bit stands above the row's width. -/
def tableWordFits (nbits w : Nat) : Bool :=
  (nbits == 32 && decide (w < 2 ^ 32)) || ((nbits == 9 || nbits == 16) && decide (w < 2 ^ 9))

/-- The decoder on bits numbered as spec/opcode_table.json numbers them. -/
def decodeTableWord (nbits w : Nat) : Option Instr :=
  if tableWordFits nbits w then
    match decode (accessOfTableWord nbits w) with
    | .ok i => some i
    | .error _ => none
  else none

end Sys2Proof
end

