-- ==== Sys2Proof/Config.lean ====
section
/-!
DEFINITION. What is fixed for one block: the six frame rates by name, the parameters of
spec/00_scope.md R6 with the spec's values, and the free values, which are constants without a body.
-/

namespace Sys2Proof

/-- The document's rate set, in the order of `CFG.RATE_SEL` 0 to 5 (R118). -/
inductive Rate where
  | fps24 | fps25 | fps2997 | fps30 | fps5994 | fps60
deriving DecidableEq, Repr

/-- `BMC_CONVENTION`, the two values R304 defines. -/
inductive BmcConvention where
  /-- A transition at the midpoint always, at the start only for a 1 bit. -/
  | doc
  /-- A transition at the start always, at the midpoint only for a 1 bit. -/
  | smpte
deriving DecidableEq, Repr

/-- `DF5994_DROP`, the two values R120 allows. -/
inductive Df5994Drop where
  | two | four
deriving DecidableEq, Repr

/-- The parameters the model takes as arguments (R6); `AMP` is `Config.amp`. -/
structure Params where
  /-- `REF_POLARITY` (R303). -/
  refPolarity : Bool
  /-- `BMC_CONVENTION` (R304). -/
  bmc : BmcConvention
  /-- `DF5994_DROP` (R120). -/
  df5994Drop : Df5994Drop
deriving DecidableEq, Repr

namespace Config

/-- The spec values of R6: `REF_POLARITY` 0, `BMC_CONVENTION` DOC, `DF5994_DROP` 4. -/
def specParams : Params := { refPolarity := false, bmc := .doc, df5994Drop := .four }

/-- Free value: `AMP - 1`, where `AMP` is "integer 1 to 32767", OPEN (R6, R349; log entry 7). -/
opaque ampLessOne : Fin 32767

/-- `AMP` (R349). -/
def amp : Nat := ampLessOne.val + 1

/-- Free value: `DROP(r)` "is undefined for rates without drop-frame" (R120; log entry 8). -/
opaque dropUnstated : Rate → Nat

/-- Free value: the half-bit of a sample at sample rate 0, for which the grid is undefined
(D28; log entry 9); the second argument is the sample index. -/
opaque halfBitUnstated : Rate → Nat → Nat

end Config

end Sys2Proof
end

