-- ==== Sys2Proof/Machine/State.lean ====
section
/-!
DEFINITION. The state of the block (spec/10_state.md), the agents around it (spec/00_scope.md R14),
the reset state (R63), and the reasons a step can stop.
-/

namespace Sys2Proof.Machine

/-- A timecode `hh:mm:ss:ff`, a tuple of naturals (R10). -/
structure Timecode where
  h : Nat
  m : Nat
  s : Nat
  f : Nat
deriving DecidableEq, Repr

/-- The block: configuration registers (R32 to R39) and working state (R50 to R60). -/
structure Block where
  /-- `CFG` (R32). -/
  cfg : Word
  /-- `TC_START` (R33). -/
  tcStart : Word
  /-- `UB` (R34). -/
  ub : Word
  /-- `UB_STAGE` (R35). -/
  ubStage : Word
  /-- `BGF` (R36). -/
  bgf : Word
  /-- `FIELD1` (R37). -/
  field1 : Word
  /-- `SAMPLE_RATE` (R38). -/
  sampleRate : Word
  /-- `DURATION` (R39). -/
  duration : Word
  /-- `w.CLK` (R50). -/
  clk : Timecode
  /-- `w.CLK_VALID` (R50). -/
  clkValid : Bool
  /-- `w.RATE` (R50; log entry 11). -/
  rate : Rate
  /-- `w.DF` (R50). -/
  df : Bool
  /-- `w.CF` (R51). -/
  runCf : Bool
  /-- `w.UBE` (R51). -/
  runUbe : Word
  /-- `w.BGF` (R51). -/
  runBgf : BitVec 8
  /-- `w.SR` (R51). -/
  runSr : Word
  /-- `w.N` (R51). -/
  runN : Word
  /-- `w.FRAME` (R52). -/
  frame : FrameBits
  /-- `w.P`, the polarity in force just before bit 0 of `w.FRAME` (R53). -/
  pol : Bool
  /-- `w.LEVEL` (R53). -/
  level : Bool
  /-- `w.BUSY` (R54). -/
  busy : Bool
  /-- `w.DONE` (R54). -/
  done : Bool
  /-- `w.ERR_KIND` (R54). -/
  errKind : BitVec 2
  /-- `w.ERR_CODE` (R54). -/
  errCode : BitVec 4
  /-- `w.REJECT` (R54). -/
  reject : Bool
  /-- `w.REJ_CODE` (R54). -/
  rejCode : BitVec 3
  /-- `w.S` (R60). -/
  samples : Nat
  /-- `w.FC` (R60). -/
  frames : Nat
deriving DecidableEq, Repr

/-- One sample of the output stream: the level and beside it the signed 16-bit PCM value (R349). -/
structure Sample where
  level : Bool
  pcm : BitVec 16
deriving DecidableEq, Repr

/-- The sink (R14, R348): its ready line, and the samples it has accepted, oldest first. -/
structure Sink where
  ready : Bool
  accepted : List Sample
deriving DecidableEq, Repr

/-- What an agent asks for at one instant. -/
inductive Request where
  /-- No agent asks to step. -/
  | idle
  /-- The host performs one access (R14). -/
  | access (a : Access)
  /-- The engine is given the turn for one EMIT (R14, R345). -/
  | engine
deriving DecidableEq, Repr

/-- One instant of the environment: the reset input, the sink's ready line, and the agent whose
turn it is (R14, R348, R430; log entry 1). -/
structure Instant where
  reset : Bool
  sinkReady : Bool
  request : Request
deriving DecidableEq, Repr

/-- The machine and the agents around it. -/
structure State where
  /-- The parameters of R6; no step changes them (log entry 2). -/
  params : Params
  /-- The block. -/
  blk : Block
  /-- The levels emitted since reset, oldest first (R348). -/
  output : List Bool
  /-- The sink. -/
  sink : Sink
  /-- The words REG_READ has returned to the host, oldest first (R170; log entry 5). -/
  replies : List Word
  /-- The instants to come, the next one first (R14; log entry 1). -/
  pending : List Instant
deriving DecidableEq, Repr

/-- The block never stops with a fault: an error or a rejection only writes fields of `STATUS`
(R393). So there is no reason to name. -/
inductive Fault
deriving DecidableEq, Repr

/-- Why a step is refused. -/
inductive Refusal where
  /-- Raised by an arm of `exec` whose instruction has no meaning yet; safe. No arm raises it. -/
  | notModelled (mnemonic : String)
  /-- Raised by a bus access whose offset is not a multiple of 4: "it has no step" (R81); safe. -/
  | misalignedOffset
  /-- Raised by a bus access of a width other than 32 bits: "it has no step" (R81); safe. -/
  | accessWidth
deriving DecidableEq, Repr

/-- The block's reset values (R63); `w.P` and `w.LEVEL` reset to `REF_POLARITY`. -/
def Block.atReset (p : Params) : Block where
  cfg := 0
  tcStart := 0
  ub := 0
  ubStage := 0
  bgf := 0
  field1 := 0
  sampleRate := 0
  duration := 0
  clk := { h := 0, m := 0, s := 0, f := 0 }
  clkValid := false
  rate := .fps24
  df := false
  runCf := false
  runUbe := 0
  runBgf := 0
  runSr := 0
  runN := 0
  frame := 0
  pol := p.refPolarity
  level := p.refPolarity
  busy := false
  done := false
  errKind := 0
  errCode := 0
  reject := false
  rejCode := 0
  samples := 0
  frames := 0

/-- The machine right after reset, at the spec's parameter values: the block at R63, nothing emitted,
nothing accepted or returned, and nothing asked of it yet (log entries 2, 4, 5, 6). -/
def State.reset : State where
  params := Config.specParams
  blk := Block.atReset Config.specParams
  output := []
  sink := { ready := true, accepted := [] }
  replies := []
  pending := []

end Sys2Proof.Machine
end

