-- ==== Sys2Proof/Machine/Rates.lean ====
section
/-!
DEFINITION. The frame-rate selector and the per-rate constants, the table of spec/30_encoding.md
R118, and the timecode ranges that rest on them (spec/41_timecode_clock.md R200, R215).
-/

namespace Sys2Proof

/-- `RATE_SEL` to rate; 6 and 7 are invalid (R118). -/
def Rate.ofSel (sel : BitVec 3) : Option Rate :=
  if sel = 0 then some .fps24
  else if sel = 1 then some .fps25
  else if sel = 2 then some .fps2997
  else if sel = 3 then some .fps30
  else if sel = 4 then some .fps5994
  else if sel = 5 then some .fps60
  else none

/-- The selector of a rate (R118). -/
def Rate.sel : Rate → BitVec 3
  | .fps24 => 0
  | .fps25 => 1
  | .fps2997 => 2
  | .fps30 => 3
  | .fps5994 => 4
  | .fps60 => 5

/-- `NOMINAL(r)` (R118, R119). -/
def Rate.nominal : Rate → Nat
  | .fps24 => 24
  | .fps25 => 25
  | .fps2997 => 30
  | .fps30 => 30
  | .fps5994 => 60
  | .fps60 => 60

/-- `NUM(r)` (R118, R119). -/
def Rate.num : Rate → Nat
  | .fps24 => 24
  | .fps25 => 25
  | .fps2997 => 30000
  | .fps30 => 30
  | .fps5994 => 60000
  | .fps60 => 60

/-- `DEN(r)` (R118, R119). -/
def Rate.den : Rate → Nat
  | .fps24 => 1
  | .fps25 => 1
  | .fps2997 => 1001
  | .fps30 => 1
  | .fps5994 => 1001
  | .fps60 => 1

/-- `DF_ALLOWED(r)`: "only 29.97 and 59.94" (R121). -/
def Rate.dfAllowed : Rate → Bool
  | .fps24 => false
  | .fps25 => false
  | .fps2997 => true
  | .fps30 => false
  | .fps5994 => true
  | .fps60 => false

/-- The number `DF5994_DROP` stands for (R120). -/
def Df5994Drop.count : Df5994Drop → Nat
  | .two => 2
  | .four => 4

/-- `DROP(r)` (R120); undefined, so a free value, for a rate without drop-frame. -/
def Rate.drop (p : Params) : Rate → Nat
  | .fps24 => Config.dropUnstated .fps24
  | .fps25 => Config.dropUnstated .fps25
  | .fps2997 => 2
  | .fps30 => Config.dropUnstated .fps30
  | .fps5994 => p.df5994Drop.count
  | .fps60 => Config.dropUnstated .fps60

/-- `PC_POS(r)` (R118, R122). -/
def Rate.pcPos : Rate → Nat
  | .fps24 => 27
  | .fps25 => 59
  | .fps2997 => 27
  | .fps30 => 27
  | .fps5994 => 27
  | .fps60 => 27

/-- `BGF0_POS(r)` (R118, R122). -/
def Rate.bgf0Pos : Rate → Nat
  | .fps24 => 43
  | .fps25 => 27
  | .fps2997 => 43
  | .fps30 => 43
  | .fps5994 => 43
  | .fps60 => 43

/-- `BGF1_POS(r)` (R118, R122). -/
def Rate.bgf1Pos : Rate → Nat
  | .fps24 => 58
  | .fps25 => 58
  | .fps2997 => 58
  | .fps30 => 58
  | .fps5994 => 58
  | .fps60 => 58

/-- `BGF2_POS(r)` (R118, R122). -/
def Rate.bgf2Pos : Rate → Nat
  | .fps24 => 59
  | .fps25 => 43
  | .fps2997 => 59
  | .fps30 => 59
  | .fps5994 => 59
  | .fps60 => 59

namespace Machine

/-- A frame value that drop-frame counting skips: seconds 0, minute not divisible by 10, frame below
`DROP(r)` (R200, R215). -/
def Timecode.dropped (p : Params) (r : Rate) (t : Timecode) : Bool :=
  t.s == 0 && t.m % 10 != 0 && decide (t.f < r.drop p)

/-- A timecode is valid for a rate and drop mode (R215). -/
def Timecode.valid (p : Params) (r : Rate) (df : Bool) (t : Timecode) : Bool :=
  decide (t.h < 24) && decide (t.m < 60) && decide (t.s < 60) && decide (t.f < r.nominal)
    && !(df && t.dropped p r)

end Machine

end Sys2Proof
end

