-- ==== Sys2Proof/Machine/Operands.lean ====
section
/-!
DEFINITION. The operand forms: the register map (spec/20_memory.md R93), the fields of the
configuration registers (spec/10_state.md R32 to R37, spec/30_encoding.md R114), and the effective
user bits (spec/42_user_bits.md R243).
-/

namespace Sys2Proof.Machine

/-- The registers of R93. -/
inductive Reg where
  | cmd | status | cfg | tcStart | ub | ubStage | bgf | field1 | sampleRate | duration
  | tcNow | sampleCount | frameCount | frame0 | frame1 | frame2 | level | clkCfg
deriving DecidableEq, Repr

/-- The offset of a register (R93). -/
def Reg.offset : Reg → Offset
  | .cmd => 0x00
  | .status => 0x04
  | .cfg => 0x08
  | .tcStart => 0x0C
  | .ub => 0x10
  | .ubStage => 0x14
  | .bgf => 0x18
  | .field1 => 0x1C
  | .sampleRate => 0x20
  | .duration => 0x24
  | .tcNow => 0x28
  | .sampleCount => 0x2C
  | .frameCount => 0x30
  | .frame0 => 0x34
  | .frame1 => 0x38
  | .frame2 => 0x3C
  | .level => 0x40
  | .clkCfg => 0x44

/-- The registers in the order of the map. -/
def Reg.all : List Reg :=
  [.cmd, .status, .cfg, .tcStart, .ub, .ubStage, .bgf, .field1, .sampleRate, .duration,
   .tcNow, .sampleCount, .frameCount, .frame0, .frame1, .frame2, .level, .clkCfg]

/-- The register at an offset; none at a reserved offset (R48, R93). -/
def Reg.ofOffset (off : Offset) : Option Reg := Reg.all.find? (fun r => r.offset == off)

/-- The bits a write stores, for a read/write register (R93); none for the others. -/
def Reg.wmask : Reg → Option Word
  | .cfg => some 0x00000037
  | .tcStart => some 0x1F3F3F3F
  | .ubStage => some 0xFFFFFFFF
  | .bgf => some 0x000000FF
  | .field1 => some 0x0000010F
  | .sampleRate => some 0xFFFFFFFF
  | .duration => some 0xFFFFFFFF
  | .cmd => none
  | .status => none
  | .ub => none
  | .tcNow => none
  | .sampleCount => none
  | .frameCount => none
  | .frame0 => none
  | .frame1 => none
  | .frame2 => none
  | .level => none
  | .clkCfg => none

/-- `CFG.RATE_SEL` = bits [2:0] (R32). -/
def cfgRateSel (v : Word) : BitVec 3 := v.extractLsb' 0 3

/-- `CFG.DF_REQ` = bit [4] (R32). -/
def cfgDfReq (v : Word) : Bool := v.getLsbD 4

/-- `CFG.CF` = bit [5] (R32). -/
def cfgCf (v : Word) : Bool := v.getLsbD 5

/-- The timecode in `TC_START`, each field an unsigned binary number (R33, R114). -/
def tcOfWord (v : Word) : Timecode where
  h := (v.extractLsb' 24 5).toNat
  m := (v.extractLsb' 16 6).toNat
  s := (v.extractLsb' 8 6).toNat
  f := (v.extractLsb' 0 6).toNat

/-- The `TC_START` layout of a timecode, with `top` in bit 31 (R33, R42). -/
def wordOfTc (top : Bool) (t : Timecode) : Word :=
  BitVec.ofBool top ++ 0#2 ++ BitVec.ofNat 5 t.h ++ 0#2 ++ BitVec.ofNat 6 t.m ++ 0#2
    ++ BitVec.ofNat 6 t.s ++ 0#2 ++ BitVec.ofNat 6 t.f

/-- `BGF.FLAGS` = bits [7:0] (R36). -/
def bgfFlags (v : Word) : BitVec 8 := v.extractLsb' 0 8

/-- `FIELD1.VALUE` = bits [3:0] (R37). -/
def field1Value (v : Word) : BitVec 4 := v.extractLsb' 0 4

/-- `FIELD1.EN` = bit [8] (R37). -/
def field1En (v : Word) : Bool := v.getLsbD 8

/-- `UBE(UB, FIELD1)` (R243). -/
def effectiveUb (ub field1 : Word) : Word :=
  if field1En field1 then ub.extractLsb' 4 28 ++ field1Value field1 else ub

end Sys2Proof.Machine
end

