-- ==== Sys2Proof/Machine/Flags.lean ====
section
/-!
DEFINITION. The flags (spec/10_state.md R62): the `STATUS` word (R41), the error kinds and codes
(spec/60_exceptions.md R380, R381), the acceptance of a command (spec/40_host_access.md R176), and
the counts of bits the frame's polarity correction rests on (spec/43_frame_assembler.md R267).
-/

namespace Sys2Proof.Machine

/-- `STATUS` (R41): REJ_CODE [11:9], REJECT [8], ERR_CODE [7:4], ERR_KIND [3:2], DONE [1], BUSY [0]. -/
def statusWord (b : Block) : Word :=
  0#20 ++ b.rejCode ++ BitVec.ofBool b.reject ++ b.errCode ++ b.errKind ++ BitVec.ofBool b.done
    ++ BitVec.ofBool b.busy

/-- The eight checks of validation (R201, R381). -/
inductive ValError where
  | rateSel | dropNotAllowed | sampleRateZero | hours | minutes | seconds | frames | droppedFrame
deriving DecidableEq, Repr

/-- `STATUS.ERR_KIND` of a check: 1 ValidationError, 2 ConfigError (R380, R381). -/
def ValError.kind : ValError → BitVec 2
  | .rateSel => 1
  | .dropNotAllowed => 2
  | .sampleRateZero => 1
  | .hours => 1
  | .minutes => 1
  | .seconds => 1
  | .frames => 1
  | .droppedFrame => 1

/-- `STATUS.ERR_CODE` of a check (R381). -/
def ValError.code : ValError → BitVec 4
  | .rateSel => 1
  | .dropNotAllowed => 2
  | .sampleRateZero => 3
  | .hours => 4
  | .minutes => 5
  | .seconds => 6
  | .frames => 7
  | .droppedFrame => 8

/-- `ACCEPT(op, arg, hi)`: 0, or the rejection code of the first failing check (R176, R390). -/
def acceptCode (op arg : BitVec 8) (hi : BitVec 16) (b : Block) : BitVec 3 :=
  if 0x05 < op.toNat then 2
  else if hi ≠ 0 then 3
  else if op = 0x05 ∧ argHigh arg ≠ 0 then 3
  else if op ≠ 0x05 ∧ arg ≠ 0 then 3
  else if b.busy = true ∧ (op = 0x01 ∨ op = 0x02 ∨ op = 0x03 ∨ op = 0x04) then 1
  else if (op = 0x03 ∨ op = 0x04) ∧ b.clkValid = false then 4
  else 0

/-- The count of `t` in `0..n-1` with `F[t] = 0` (R308, R309). -/
def zerosBelow (F : FrameBits) : Nat → Nat
  | 0 => 0
  | n + 1 => zerosBelow F n + (if F.getLsbD n then 0 else 1)

/-- XOR of `F[i]` for the `i` below `n` other than `pc` (R267). -/
def xorExcept (F : FrameBits) (pc : Nat) : Nat → Bool
  | 0 => false
  | n + 1 => xorExcept F pc n ^^ (if n = pc then false else F.getLsbD n)

end Sys2Proof.Machine
end

