-- ==== Sys2Proof/Machine/Ops.lean ====
section
/-!
DEFINITION. The shared operations over registers and agents: reading and writing a register
(spec/40_host_access.md R170, R172), reporting an error and rejecting a command
(spec/60_exceptions.md R383, R391), issuing a command (R175), returning a word to the host, passing
a sample to the sink (spec/45_waveform_generation.md R348), and reset (R430).
-/

namespace Sys2Proof.Machine

/-- The value a read of a register returns (R40 to R47, R170); reserved bits of a read/write
register read 0 (R84). -/
def Block.readReg (b : Block) : Reg → Word
  | .cmd => 0
  | .status => statusWord b
  | .cfg => b.cfg &&& 0x00000037
  | .tcStart => b.tcStart &&& 0x1F3F3F3F
  | .ub => b.ub
  | .ubStage => b.ubStage
  | .bgf => b.bgf &&& 0x000000FF
  | .field1 => b.field1 &&& 0x0000010F
  | .sampleRate => b.sampleRate
  | .duration => b.duration
  | .tcNow => wordOfTc b.clkValid b.clk
  | .sampleCount => BitVec.ofNat 32 b.samples
  | .frameCount => BitVec.ofNat 32 b.frames
  | .frame0 => b.frame.extractLsb' 0 32
  | .frame1 => b.frame.extractLsb' 32 32
  | .frame2 => 0#16 ++ b.frame.extractLsb' 64 16
  | .level => 0#31 ++ BitVec.ofBool b.level
  | .clkCfg => 0#27 ++ BitVec.ofBool b.df ++ 0#1 ++ b.rate.sel

/-- `view(off)`; a reserved offset reads 0 (R84, R170). -/
def Block.readWord (b : Block) (off : Offset) : Word :=
  match Reg.ofOffset off with
  | some r => b.readReg r
  | none => 0

/-- `reg[off] <- v & WMASK(off)` for a read/write register; a write to any other register is
ignored (R84, R172). A write to `CMD` is a command and is not made here. -/
def Block.writeReg (b : Block) (v : Word) : Reg → Block
  | .cfg => { b with cfg := v &&& 0x00000037 }
  | .tcStart => { b with tcStart := v &&& 0x1F3F3F3F }
  | .ubStage => { b with ubStage := v &&& 0xFFFFFFFF }
  | .bgf => { b with bgf := v &&& 0x000000FF }
  | .field1 => { b with field1 := v &&& 0x0000010F }
  | .sampleRate => { b with sampleRate := v &&& 0xFFFFFFFF }
  | .duration => { b with duration := v &&& 0xFFFFFFFF }
  | .cmd => b
  | .status => b
  | .ub => b
  | .tcNow => b
  | .sampleCount => b
  | .frameCount => b
  | .frame0 => b
  | .frame1 => b
  | .frame2 => b
  | .level => b
  | .clkCfg => b

/-- A write of `v` at an offset other than that of `CMD`; at a reserved offset it is ignored
(R84, R172). -/
def Block.writeWord (b : Block) (off : Offset) (v : Word) : Block :=
  match Reg.ofOffset off with
  | some r => b.writeReg v r
  | none => b

/-- `raise (kind, code)`: the error fields are written and the command ends (R383). -/
def Block.raise (b : Block) (e : ValError) : Block :=
  { b with errKind := e.kind, errCode := e.code }

/-- A passing validation writes `ERR_KIND` = 0 and `ERR_CODE` = 0 (R383). -/
def Block.clearError (b : Block) : Block := { b with errKind := 0, errCode := 0 }

/-- `reject(code)`: `REJECT` and `REJ_CODE` are written and nothing else (R391). -/
def Block.rejectCmd (b : Block) (code : BitVec 3) : Block :=
  { b with reject := true, rejCode := code }

/-- An accepted command clears both rejection fields (R175, R177). -/
def Block.clearReject (b : Block) : Block := { b with reject := false, rejCode := 0 }

/-- `COMMAND` with the acceptance of R176: the rejection, or the body after the bookkeeping (R175). -/
def Block.issue (b : Block) (op arg : BitVec 8) (hi : BitVec 16) (body : Block → Block) : Block :=
  if acceptCode op arg hi b ≠ 0 then b.rejectCmd (acceptCode op arg hi b)
  else body b.clearReject

/-- The block is replaced; nothing outside it changes. -/
def State.setBlk (s : State) (b : Block) : State := { s with blk := b }

/-- The host receives the word a read returns (R170). -/
def State.pushReply (s : State) (v : Word) : State := { s with replies := s.replies ++ [v] }

/-- `pcm = if level = 1 then +AMP else -AMP`, signed, 16 bits (R349). -/
def pcmOfLevel (level : Bool) : BitVec 16 :=
  BitVec.ofInt 16 (if level then (Config.amp : Int) else -(Config.amp : Int))

/-- `emit(level)`: the sample passes to the sink and the level is recorded (R348, R349). -/
def State.emitLevel (s : State) (level : Bool) : State :=
  { s with
    output := s.output ++ [level]
    sink := { s.sink with accepted := s.sink.accepted ++ [{ level := level, pcm := pcmOfLevel level }] } }

/-- The effect of reset: every element of the block at its reset value, and the record of levels
since reset begins anew; samples already accepted stay with the sink (R348, R430; log entry 4). -/
def State.takeReset (s : State) : State :=
  { s with blk := Block.atReset s.params, output := [] }

/-- The instant `i` is reached: the sink's ready line is as the instant says, and `rest` remains. -/
def State.reach (s : State) (i : Instant) (rest : List Instant) : State :=
  { s with sink := { s.sink with ready := i.sinkReady }, pending := rest }

/-- What the block does with an access that decodes to no instruction: a command word with a
reserved opcode or reserved bits is rejected with code 2 or 3 (R113, R112, R390), and an access of
another width or at a misaligned offset is refused (R81). -/
def State.onDecodeError (s : State) : DecodeError → Host.Outcome State Fault Refusal
  | .reservedOpcode => .next (s.setBlk (s.blk.rejectCmd 2))
  | .reservedBits => .next (s.setBlk (s.blk.rejectCmd 3))
  | .accessWidth => .refused .accessWidth
  | .misaligned => .refused .misalignedOffset

end Sys2Proof.Machine
end

