-- ==== Sys2Proof/Machine/UserBits.lean ====
section
/-!
DEFINITION. User bits (spec/42_user_bits.md): UB_MERGE. The field1 override is `effectiveUb`
(Machine/Operands.lean).
-/

namespace Sys2Proof.Machine

/-- Byte `g` of the payload after a merge: that of `UB_STAGE` where the mask supplies the group
(R241). -/
def mergedByte (m : BitVec 4) (ub stage : Word) (g : Nat) : BitVec 8 :=
  if m.getLsbD g then stage.extractLsb' (8 * g) 8 else ub.extractLsb' (8 * g) 8

/-- The payload after a merge (R241). -/
def mergedUb (m : BitVec 4) (ub stage : Word) : Word :=
  mergedByte m ub stage 3 ++ mergedByte m ub stage 2 ++ mergedByte m ub stage 1
    ++ mergedByte m ub stage 0

/-- The body of UB_MERGE (R241). -/
def Block.ubMerge (m : BitVec 4) (b : Block) : Block := { b with ub := mergedUb m b.ub b.ubStage }

/-- UB_MERGE, a write of `0x00000m05` to `CMD` (R241). -/
def execUbMerge (m : BitVec 4) (s : State) : Host.Outcome State Fault Refusal :=
  .next (s.setBlk (s.blk.issue 0x05 (0#4 ++ m) 0x0000 (Block.ubMerge m)))

end Sys2Proof.Machine
end

