-- ==== Sys2Proof/Machine/Clock.lean ====
section
/-!
DEFINITION. The timecode clock (spec/41_timecode_clock.md): validation, TC_LOAD, TC_ADVANCE and the
advance function.
-/

namespace Sys2Proof.Machine

/-- What a passing validation has found in `CFG` and `TC_START` (R201). -/
structure ClockConfig where
  rate : Rate
  df : Bool
  tc : Timecode
deriving DecidableEq, Repr

/-- The checks 2 to 8 of R201, in order, on a decoded rate. -/
def checkClock (p : Params) (needSR : Bool) (sampleRate : Word) (c : ClockConfig) :
    Except ValError ClockConfig :=
  if c.df = true ∧ c.rate.dfAllowed = false then .error .dropNotAllowed
  else if needSR = true ∧ sampleRate = 0 then .error .sampleRateZero
  else if 23 < c.tc.h then .error .hours
  else if 59 < c.tc.m then .error .minutes
  else if 59 < c.tc.s then .error .seconds
  else if c.rate.nominal ≤ c.tc.f then .error .frames
  else if c.df = true ∧ c.tc.dropped p c.rate = true then .error .droppedFrame
  else .ok c

/-- `validate(needSR)`: the configuration, or the first failing check (R201). -/
def validate (p : Params) (needSR : Bool) (b : Block) : Except ValError ClockConfig :=
  match Rate.ofSel (cfgRateSel b.cfg) with
  | none => .error .rateSel
  | some r =>
    checkClock p needSR b.sampleRate { rate := r, df := cfgDfReq b.cfg, tc := tcOfWord b.tcStart }

/-- The clock takes a validated configuration, and the error fields are cleared (R205, R341). -/
def Block.loadClock (b : Block) (c : ClockConfig) : Block :=
  { b.clearError with rate := c.rate, df := c.df, clk := c.tc, clkValid := true }

/-- The body of TC_LOAD (R205). -/
def Block.tcLoad (p : Params) (b : Block) : Block :=
  match validate p false b with
  | .error e => b.raise e
  | .ok c => b.loadClock c

/-- `advance((h, m, s, f), r, df)` (R210). -/
def Timecode.advance (p : Params) (r : Rate) (df : Bool) (t : Timecode) : Timecode :=
  if t.f + 1 < r.nominal then { t with f := t.f + 1 }
  else if t.s + 1 < 60 then { t with s := t.s + 1, f := 0 }
  else
    let m' := if t.m + 1 = 60 then 0 else t.m + 1
    let h' := if t.m + 1 = 60 then t.h + 1 else t.h
    let h'' := if h' = 24 then 0 else h'
    if df = true ∧ m' % 10 ≠ 0 then { h := h'', m := m', s := 0, f := r.drop p }
    else { h := h'', m := m', s := 0, f := 0 }

/-- The body of TC_ADVANCE: the rate and drop mode are the clock's (R206). -/
def Block.tcAdvance (p : Params) (b : Block) : Block :=
  { b with clk := b.clk.advance p b.rate b.df }

/-- TC_LOAD, a write of 0x00000002 to `CMD` (R205). -/
def execTcLoad (s : State) : Host.Outcome State Fault Refusal :=
  .next (s.setBlk (s.blk.issue 0x02 0x00 0x0000 (Block.tcLoad s.params)))

/-- TC_ADVANCE, a write of 0x00000003 to `CMD` (R206). -/
def execTcAdvance (s : State) : Host.Outcome State Fault Refusal :=
  .next (s.setBlk (s.blk.issue 0x03 0x00 0x0000 (Block.tcAdvance s.params)))

end Sys2Proof.Machine
end

