-- ==== Sys2Proof/Machine/Assembler.lean ====
section
/-!
DEFINITION. The frame assembler (spec/43_frame_assembler.md): the assembly function and ASSEMBLE.
-/

namespace Sys2Proof.Machine

/-- `put(p, w, d)`: `F[p+i] <- d[i]` for `i = 0..w-1` (R261); the other bits stay. -/
def put (F : FrameBits) (p w d : Nat) : FrameBits :=
  (F &&& ~~~(BitVec.ofNat 80 (2 ^ w - 1) <<< p)) ||| (BitVec.ofNat 80 (d % 2 ^ w) <<< p)

/-- `F[p] <- x`. -/
def putBit (F : FrameBits) (p : Nat) (x : Bool) : FrameBits := put F p 1 x.toNat

/-- The sync word as the number whose bit `i` is `SYNC[i]` (R127, R261): `F[64]` to `F[79]` read
`0011 1111 1111 1101`. -/
def syncWord : Nat := 0xBFFC

/-- The BCD digits of the timecode (R261, R262, R263); the frame tens are sent modulo 4 (R128). -/
def putDigits (t : Timecode) (F : FrameBits) : FrameBits :=
  let F := put F 0 4 (t.f % 10)
  let F := put F 8 2 (t.f / 10 % 4)
  let F := put F 16 4 (t.s % 10)
  let F := put F 24 3 (t.s / 10)
  let F := put F 32 4 (t.m % 10)
  let F := put F 40 3 (t.m / 10)
  let F := put F 48 4 (t.h % 10)
  put F 56 2 (t.h / 10)

/-- Nibble `k` of the payload, `U[4k-1:4k-4]`, for `k = 1..8` (R130). -/
def ubNibble (U : Word) (k : Nat) : Nat := (U.extractLsb' (4 * k - 4) 4).toNat

/-- The user-bits nibbles at `UBPOS(k)` (R264). -/
def putUserBits (U : Word) (F : FrameBits) : FrameBits :=
  let F := put F 4 4 (ubNibble U 1)
  let F := put F 12 4 (ubNibble U 2)
  let F := put F 20 4 (ubNibble U 3)
  let F := put F 28 4 (ubNibble U 4)
  let F := put F 36 4 (ubNibble U 5)
  let F := put F 44 4 (ubNibble U 6)
  let F := put F 52 4 (ubNibble U 7)
  put F 60 4 (ubNibble U 8)

/-- The drop-frame, colour-frame and binary-group flags (R265, R266, R132). -/
def putFlags (r : Rate) (df cf : Bool) (G : BitVec 8) (F : FrameBits) : FrameBits :=
  let F := putBit F 10 df
  let F := putBit F 11 cf
  let F := putBit F r.bgf0Pos (G.getLsbD 0)
  let F := putBit F r.bgf1Pos (G.getLsbD 1)
  putBit F r.bgf2Pos (G.getLsbD 2)

/-- `F[PC_POS(r)] <- XOR of F[i] for all i != PC_POS(r)`, the last bit computed (R261, R267). -/
def putPolarity (r : Rate) (F : FrameBits) : FrameBits :=
  putBit F r.pcPos (xorExcept F r.pcPos 80)

/-- `assemble((h, m, s, f), r, df, cf, U, G)` (R261). -/
def assembleFrame (t : Timecode) (r : Rate) (df cf : Bool) (U : Word) (G : BitVec 8) : FrameBits :=
  putPolarity r (put (putFlags r df cf G (putUserBits U (putDigits t 0))) 64 16 syncWord)

/-- The body of ASSEMBLE: the clock's rate and drop mode, the present registers' colour flag, user
bits and binary-group flags (R270). -/
def Block.assemble (b : Block) : Block :=
  { b with
    frame := assembleFrame b.clk b.rate b.df (cfgCf b.cfg) (effectiveUb b.ub b.field1) (bgfFlags b.bgf) }

/-- ASSEMBLE, a write of 0x00000004 to `CMD` (R270). -/
def execAssemble (s : State) : Host.Outcome State Fault Refusal :=
  .next (s.setBlk (s.blk.issue 0x04 0x00 0x0000 Block.assemble))

end Sys2Proof.Machine
end

