-- ==== Sys2Proof/Machine/Modulator.lean ====
section
/-!
DEFINITION. The biphase-mark modulator (spec/44_biphase_modulator.md): the level within one frame,
the end polarity of a frame, and the sample grid.
-/

namespace Sys2Proof.Machine

/-- The two half-bit levels of a bit `x` entered at polarity `P`, under either convention (R304). -/
def bitLevel (c : BmcConvention) (P x : Bool) (second : Bool) : Bool :=
  if second then P ^^ x ^^ true
  else
    match c with
    | .doc => P ^^ x
    | .smpte => P ^^ true

/-- The polarity before bit `i` of a frame entered at polarity `P` (R302, R308). -/
def polAtBit (F : FrameBits) (P : Bool) (i : Nat) : Bool := P ^^ decide (zerosBelow F i % 2 = 1)

/-- `halfLevel(F, P, h)` (R308). -/
def halfLevel (c : BmcConvention) (F : FrameBits) (P : Bool) (h : Nat) : Bool :=
  bitLevel c (polAtBit F P (h / 2)) (F.getLsbD (h / 2)) (decide (h % 2 = 1))

/-- `endPol(F, P)` (R309). -/
def endPol (F : FrameBits) (P : Bool) : Bool := polAtBit F P 80

/-- `K = SR x DEN(r)` (R310). -/
def gridK (r : Rate) (sr : Nat) : Nat := sr * r.den

/-- `D = 160 x NUM(r)` (R310). -/
def gridD (r : Rate) : Nat := 160 * r.num

/-- `halfBitOf(s) = floor(s x D / K)` for `SR >= 1` (R310); a free value for `SR` = 0. -/
def halfBitOf (r : Rate) (sr s : Nat) : Nat :=
  if sr = 0 then Config.halfBitUnstated r s else s * gridD r / gridK r sr

end Sys2Proof.Machine
end

