-- ==== Sys2Proof/Machine/Waveform.lean ====
section
/-!
DEFINITION. Waveform generation (spec/45_waveform_generation.md): START and the EMIT step.
-/

namespace Sys2Proof.Machine

/-- START after a passing validation: the snapshot, the clock, and the run begins, or ends at once
for `DURATION` = 0 (R341). -/
def Block.beginRun (p : Params) (b : Block) (c : ClockConfig) : Block :=
  { b.loadClock c with
    runCf := cfgCf b.cfg
    runUbe := effectiveUb b.ub b.field1
    runBgf := bgfFlags b.bgf
    runSr := b.sampleRate
    runN := b.duration
    samples := 0
    frames := 0
    pol := p.refPolarity
    level := p.refPolarity
    done := if b.duration = 0 then true else b.done
    busy := if b.duration = 0 then b.busy else true }

/-- `DONE` is cleared before START validates (R341, R383). -/
def Block.clearDone (b : Block) : Block := { b with done := false }

/-- The body of START (R341). Where validation fails only `DONE` and the error fields change (R341,
R383), so `w.LEVEL` stays the level of the last sample emitted. DESIGN CHOICE: R46's words "since the
last accepted START" would read as `REF_POLARITY` there (log entry 21; unsafe). -/
def Block.start (p : Params) (b : Block) : Block :=
  match validate p true b.clearDone with
  | .error e => b.clearDone.raise e
  | .ok c => b.clearDone.beginRun p c

/-- START, a write of 0x00000001 to `CMD` (R341). -/
def execStart (s : State) : Host.Outcome State Fault Refusal :=
  .next (s.setBlk (s.blk.issue 0x01 0x00 0x0000 (Block.start s.params)))

/-- The polarity handoff (R347): the end polarity of the frame held, unless none was assembled. -/
def Block.handoff (b : Block) : Bool := if 0 < b.frames then endPol b.frame b.pol else b.pol

/-- One turn of EMIT's loop: the next frame is assembled and the clock advances (R345, R346). -/
def Block.nextFrame (p : Params) (b : Block) : Block :=
  { b with
    pol := b.handoff
    frame := assembleFrame b.clk b.rate b.df b.runCf b.runUbe b.runBgf
    clk := b.clk.advance p b.rate b.df
    frames := b.frames + 1 }

/-- `n` turns of EMIT's loop. -/
def Block.nextFrames (p : Params) : Nat → Block → Block
  | 0, b => b
  | n + 1, b => Block.nextFrames p n (b.nextFrame p)

/-- The half-bit of the sample to emit (R345). -/
def Block.halfBit (b : Block) : Nat := halfBitOf b.rate b.runSr.toNat b.samples

/-- `while w.FC <= k`: the turns left are `k + 1 - w.FC` (R345). -/
def Block.assembleThrough (p : Params) (k : Nat) (b : Block) : Block :=
  Block.nextFrames p (k + 1 - b.frames) b

/-- The level EMIT emits, of a block whose frames are assembled (R345). -/
def Block.levelAt (p : Params) (j : Nat) (b : Block) : Bool := halfLevel p.bmc b.frame b.pol (j % 160)

/-- The sample is counted, and the run completes with the last one (R345, R350). -/
def Block.countSample (level : Bool) (b : Block) : Block :=
  { b with
    level := level
    samples := b.samples + 1
    busy := if b.samples + 1 = b.runN.toNat then false else b.busy
    done := if b.samples + 1 = b.runN.toNat then true else b.done }

/-- EMIT's effect where it is enabled (R345). -/
def State.emitSample (s : State) : State :=
  let j := s.blk.halfBit
  let b := s.blk.assembleThrough s.params (j / 160)
  let level := b.levelAt s.params j
  (s.setBlk (b.countSample level)).emitLevel level

/-- EMIT is enabled "exactly when `w.BUSY = 1` and the sink is ready" (R345). -/
def State.emitEnabled (s : State) : Bool := s.blk.busy && s.sink.ready

/-- EMIT (R345); where it is not enabled the engine waits and nothing changes (R444; log entry 10). -/
def execEmit (s : State) : Host.Outcome State Fault Refusal :=
  .next (if s.emitEnabled then s.emitSample else s)

end Sys2Proof.Machine
end

