-- ==== Sys2Proof/Machine/HostAccess.lean ====
section
/-!
DEFINITION. Host access (spec/40_host_access.md): NOP, REG_READ, REG_WRITE, and the dispatch of a
write to `CMD`.
-/

namespace Sys2Proof.Machine

/-- The case on the opcode of an accepted command (R175); acceptance has ruled out the others. -/
def Block.perform (p : Params) (op arg : BitVec 8) (b : Block) : Block :=
  if op = 0x01 then b.start p
  else if op = 0x02 then b.tcLoad p
  else if op = 0x03 then b.tcAdvance p
  else if op = 0x04 then b.assemble
  else if op = 0x05 then b.ubMerge (argMask arg)
  else b

/-- `COMMAND(v)` (R175). -/
def Block.command (p : Params) (v : Word) (b : Block) : Block :=
  b.issue (cmdOp v) (cmdArg v) (cmdHi v) (Block.perform p (cmdOp v) (cmdArg v))

/-- NOP, a write of 0x00000000 to `CMD`: `skip` after the acceptance bookkeeping (R178). -/
def execNop (s : State) : Host.Outcome State Fault Refusal :=
  .next (s.setBlk (s.blk.issue 0x00 0x00 0x0000 (fun b => b)))

/-- REG_READ (R170); a misaligned offset is refused (R81). -/
def execRegRead (off : Offset) (s : State) : Host.Outcome State Fault Refusal :=
  if Offset.aligned off then .next (s.pushReply (s.blk.readWord off))
  else .refused .misalignedOffset

/-- REG_WRITE (R172); a misaligned offset is refused (R81). -/
def execRegWrite (off : Offset) (v : Word) (s : State) : Host.Outcome State Fault Refusal :=
  if Offset.aligned off then
    .next (s.setBlk (if off = 0x00 then s.blk.command s.params v else s.blk.writeWord off v))
  else .refused .misalignedOffset

end Sys2Proof.Machine
end

