-- ==== Sys2Proof/Machine/Dispatch.lean ====
section
/-!
DEFINITION. The dispatch: one arm per constructor of `Instr`, each one direct call of its meaning.
-/

namespace Sys2Proof.Machine

def exec (i : Instr) (s : State) : Host.Outcome State Fault Refusal :=
  match i with
  | .nop => Sys2Proof.Machine.execNop s
  | .start => Sys2Proof.Machine.execStart s
  | .tcLoad => Sys2Proof.Machine.execTcLoad s
  | .tcAdvance => Sys2Proof.Machine.execTcAdvance s
  | .assemble => Sys2Proof.Machine.execAssemble s
  | .ubMerge m => Sys2Proof.Machine.execUbMerge m s
  | .regRead off => Sys2Proof.Machine.execRegRead off s
  | .regWrite off v => Sys2Proof.Machine.execRegWrite off v s
  | .emit => Sys2Proof.Machine.execEmit s

end Sys2Proof.Machine
end

