-- ==== Sys2Proof/Machine/Step.lean ====
section
/-!
DEFINITION. One step: the next instant of the environment is taken, and the agent whose turn it is
performs its atomic step (spec/00_scope.md R14); reset takes precedence (spec/70_reset_and_hazards.md
R430). Where no instant is left the block is idle (spec/60_exceptions.md R399; log entry 3).
-/

namespace Sys2Proof.Machine

/-- The step of the agent whose turn it is. -/
def serve (req : Request) (s : State) : Host.Outcome State Fault Refusal :=
  match req with
  | .idle => .next s
  | .engine => exec .emit s
  | .access a =>
    match decode a with
    | .ok i => exec i s
    | .error e => s.onDecodeError e

def step (s : State) : Host.Outcome State Fault Refusal :=
  match s.pending with
  | [] => .next s
  | i :: rest =>
    if i.reset then .next (s.reach i rest).takeReset else serve i.request (s.reach i rest)

/-- The host presents the access that a row's bits stand for as the very next instant, without
reset and with the sink's ready line as it stands (log entry 13). -/
def State.withFetchWord (s : State) (nbits w : Nat) : State :=
  { s with
    pending :=
      { reset := false, sinkReady := s.sink.ready, request := .access (accessOfTableWord nbits w) }
        :: s.pending }

end Sys2Proof.Machine
end

