-- ==== Sys2Proof/Machine/HostSyntax.lean ====
section
/-!
DEFINITION. The host program syntax of spec/30_encoding.md R140 and its pseudo-instructions R141, as
the host accesses each stands for. It is the spec's own notation for host programs; the block itself
sees only the accesses.
-/

namespace Sys2Proof.Machine

/-- The commands that `CMD <mnemonic>` names (R111, R140). -/
inductive CmdName where
  | nop | start | tcLoad | tcAdvance | assemble
deriving DecidableEq, Repr

/-- The opcode of a mnemonic (R111). -/
def CmdName.op : CmdName → BitVec 8
  | .nop => 0x00
  | .start => 0x01
  | .tcLoad => 0x02
  | .tcAdvance => 0x03
  | .assemble => 0x04

/-- One line of a host program (R140, R141). -/
inductive HostOp where
  /-- `WR <reg>, <value>` -/
  | wr (r : Reg) (v : Word)
  /-- `RD <reg>` -/
  | rd (r : Reg)
  /-- `CMD <mnemonic>` -/
  | cmd (n : CmdName)
  /-- `CMD UB_MERGE <mask>` -/
  | ubMerge (mask : BitVec 8)
  /-- `WAIT_IDLE`, unrolled to `polls` reads of STATUS: the host's loop itself is the host's
  (log entry 15). -/
  | waitIdle (polls : Nat)
  /-- `SET_TC hh:mm:ss:ff` -/
  | setTc (hh mm ss ff : Nat)
  /-- `SET_CFG <rate>, <df>, <cf>` -/
  | setCfg (r : Rate) (df cf : Bool)
  /-- `SET_FIELD1 <v>` -/
  | setField1 (v : BitVec 4)
  /-- `CLR_FIELD1` -/
  | clrField1
  /-- `SET_UB <word>` -/
  | setUb (v : Word)
deriving DecidableEq, Repr

/-- A whole-word write in format BUS. -/
def busWrite (r : Reg) (v : Word) : Access := .bus 4 (busDesc true r.offset) v

/-- A whole-word read in format BUS. -/
def busRead (r : Reg) : Access := .bus 4 (busDesc false r.offset) 0

/-- `CMD UB_MERGE <mask>` is `WR CMD, (mask << 8) | 0x05` (R140). -/
def ubMergeWord (mask : BitVec 8) : Word := (mask.setWidth 32 <<< 8) ||| 0x05

/-- The accesses a line stands for, in order (R140, R141). -/
def HostOp.accesses : HostOp → List Access
  | .wr r v => [busWrite r v]
  | .rd r => [busRead r]
  | .cmd n => [busWrite .cmd (n.op.setWidth 32)]
  | .ubMerge mask => [busWrite .cmd (ubMergeWord mask)]
  | .waitIdle polls => List.replicate polls (busRead .status)
  | .setTc hh mm ss ff =>
    [busWrite .tcStart (BitVec.ofNat 32 ((hh <<< 24) ||| (mm <<< 16) ||| (ss <<< 8) ||| ff))]
  | .setCfg r df cf =>
    [busWrite .cfg (r.sel.setWidth 32 ||| ((BitVec.ofBool df).setWidth 32 <<< 4)
      ||| ((BitVec.ofBool cf).setWidth 32 <<< 5))]
  | .setField1 v => [busWrite .field1 (0x100 ||| v.setWidth 32)]
  | .clrField1 => [busWrite .field1 0]
  | .setUb v => [busWrite .ubStage v, busWrite .cmd (ubMergeWord 0xF)]

/-- An instant at which the host performs an access and the sink stands as given. -/
def hostInstant (ready : Bool) (a : Access) : Instant :=
  { reset := false, sinkReady := ready, request := .access a }

/-- An instant at which the engine has the turn and the sink is ready. -/
def engineInstant : Instant := { reset := false, sinkReady := true, request := .engine }

/-- The instants of a host program that no other agent interleaves with. -/
def hostProgram (ready : Bool) (ops : List HostOp) : List Instant :=
  (ops.flatMap HostOp.accesses).map (hostInstant ready)

end Sys2Proof.Machine
end

