-- ==== Sys2Proof/Machine/RunSpec.lean ====
section
/-!
DEFINITION. A run as pure functions of what START snapshots: frames and their timecodes
(spec/45_waveform_generation.md R346, R351), the bit stream, the polarity recurrence, the half-bit
levels and the sample levels (spec/44_biphase_modulator.md R300 to R310), the boundaries of the grid
(R311), its incremental form (R312), and the decoding of a frame's digits (R269). The engine of
Machine/Waveform.lean does not use them: claims compare it with them.
-/

namespace Sys2Proof.Machine

/-- What a run is a function of (R51, R340). -/
structure RunSnapshot where
  params : Params
  rate : Rate
  df : Bool
  cf : Bool
  ube : Word
  bgf : BitVec 8
  sr : Nat
  n : Nat
  /-- The start timecode. -/
  tc : Timecode
deriving DecidableEq, Repr

/-- `tc_k`: the start timecode advanced `k` times (R10, R346). -/
def RunSnapshot.tcAt (x : RunSnapshot) : Nat → Timecode
  | 0 => x.tc
  | k + 1 => (x.tcAt k).advance x.params x.rate x.df

/-- `F_k = assemble(tc_k, ...)` (R346). -/
def RunSnapshot.frameAt (x : RunSnapshot) (k : Nat) : FrameBits :=
  assembleFrame (x.tcAt k) x.rate x.df x.cf x.ube x.bgf

/-- `b_n = F_k[i]` for `n = 80k + i` (R300). -/
def RunSnapshot.bitAt (x : RunSnapshot) (n : Nat) : Bool := (x.frameAt (n / 80)).getLsbD (n % 80)

/-- `P_0 = REF_POLARITY`, `P_{n+1} = P_n ^ b_n ^ 1` (R302, R303). -/
def RunSnapshot.polBefore (x : RunSnapshot) : Nat → Bool
  | 0 => x.params.refPolarity
  | n + 1 => x.polBefore n ^^ x.bitAt n ^^ true

/-- `L(j)`: `L(2n)` and `L(2n + 1)` of bit `n` (R301, R304). -/
def RunSnapshot.halfBitLevel (x : RunSnapshot) (j : Nat) : Bool :=
  bitLevel x.params.bmc (x.polBefore (j / 2)) (x.bitAt (j / 2)) (decide (j % 2 = 1))

/-- `sampleLevel(s) = L(halfBitOf(s))` (R310). -/
def RunSnapshot.sampleLevel (x : RunSnapshot) (s : Nat) : Bool :=
  x.halfBitLevel (halfBitOf x.rate x.sr s)

/-- The frames assembled when `s` samples have been emitted: none before the first sample, then
those up to the frame of the last one (R346, R351). -/
def framesFor (r : Rate) (sr s : Nat) : Nat :=
  if s = 0 then 0 else halfBitOf r sr (s - 1) / 160 + 1

/-- `ceil(a / b)`. -/
def ceilDiv (a b : Nat) : Nat := (a + b - 1) / b

/-- The first sample of half-bit `j`, `ceil(j x K / D)` (R311). -/
def firstSample (r : Rate) (sr j : Nat) : Nat := ceilDiv (j * gridK r sr) (gridD r)

/-- `S(k)`: the samples of frames `0..k-1` together (R311). -/
def samplesOfFrames (r : Rate) (sr k : Nat) : Nat := ceilDiv (k * sr * r.den) r.num

/-- The accumulator of R312: the half-bit and the remainder. -/
structure GridAcc where
  j : Nat
  acc : Nat
deriving DecidableEq, Repr

/-- `while acc >= K: acc <- acc - K; j <- j + 1`, with `fuel` turns at most. -/
def GridAcc.carry (K : Nat) : Nat → GridAcc → GridAcc
  | 0, a => a
  | fuel + 1, a => if K ≤ a.acc then GridAcc.carry K fuel { j := a.j + 1, acc := a.acc - K } else a

/-- After a sample: `acc <- acc + D`, then the carries (R312); `acc + D` turns are enough for
`K >= 1`. -/
def GridAcc.next (K D : Nat) (a : GridAcc) : GridAcc :=
  GridAcc.carry K (a.acc + D) { a with acc := a.acc + D }

/-- The accumulator before sample `s` (R312). -/
def GridAcc.before (K D : Nat) : Nat → GridAcc
  | 0 => { j := 0, acc := 0 }
  | s + 1 => (GridAcc.before K D s).next K D

/-- The snapshot of a block whose run has just been started (R341). -/
def Block.snapshot (p : Params) (b : Block) : RunSnapshot where
  params := p
  rate := b.rate
  df := b.df
  cf := b.runCf
  ube := b.runUbe
  bgf := b.runBgf
  sr := b.runSr.toNat
  n := b.runN.toNat
  tc := b.clk

/-- `w` bits of a frame from bit `p`, the least significant first (R125). -/
def fieldOf (F : FrameBits) (p w : Nat) : Nat := (F.extractLsb' p w).toNat

/-- The timecode the BCD digits of a frame spell (R263, R269). -/
def decodedTimecode (F : FrameBits) : Timecode where
  h := 10 * fieldOf F 56 2 + fieldOf F 48 4
  m := 10 * fieldOf F 40 3 + fieldOf F 32 4
  s := 10 * fieldOf F 24 3 + fieldOf F 16 4
  f := 10 * fieldOf F 8 2 + fieldOf F 0 4

end Sys2Proof.Machine
end

