-- ==== Sys2Proof/Safety.lean ====
section
/-!
DEFINITION. What holds of every state a run can reach: the reserved bits, the clock, the error and
rejection fields, the run position and the polarity. Every clause is a rule of the spec, or follows
from one, as its docstring says.
-/

namespace Sys2Proof.Machine

/-- Reserved bits of the read/write registers hold 0 (R84, R93). -/
def Block.ReservedZero (b : Block) : Prop :=
  b.cfg &&& 0x00000037 = b.cfg ∧ b.tcStart &&& 0x1F3F3F3F = b.tcStart ∧
    b.bgf &&& 0x000000FF = b.bgf ∧ b.field1 &&& 0x0000010F = b.field1

/-- `w.CLK` is valid whenever `w.CLK_VALID = 1`, and drop mode is on only where the rate allows it
(R202, R215). -/
def Block.ClockOk (p : Params) (b : Block) : Prop :=
  (b.clkValid = true → b.clk.valid p b.rate b.df = true) ∧ (b.df = true → b.rate.dfAllowed = true)

/-- The error fields are 0 and 0, or the kind and code of one check (R380, R381). -/
def Block.ErrorOk (b : Block) : Prop :=
  (b.errKind = 0 ∧ b.errCode = 0) ∨ ∃ e : ValError, b.errKind = e.kind ∧ b.errCode = e.code

/-- `REJ_CODE` is at most 4, and `REJECT` is set exactly when it is not 0 (R390, R391). -/
def Block.RejectOk (b : Block) : Prop :=
  b.rejCode.toNat ≤ 4 ∧ (b.reject = true ↔ b.rejCode ≠ 0)

/-- `w.S` never exceeds `w.N`; a run is in progress exactly while `w.S` is below it; a run in
progress has a loaded clock, a sample rate and no `DONE`; and the frames assembled are those up to
the frame of the last sample (R345, R346, R350, R351). -/
def Block.RunOk (b : Block) : Prop :=
  b.samples ≤ b.runN.toNat ∧ (b.busy = true ↔ b.samples < b.runN.toNat) ∧
    (b.busy = true → b.clkValid = true ∧ b.runSr ≠ 0 ∧ b.done = false ∧
      b.frames = framesFor b.rate b.runSr.toNat b.samples)

/-- `w.P` is `REF_POLARITY`, and the frame register holds an even number of 0 bits (R267, R307). -/
def Block.PolarityOk (p : Params) (b : Block) : Prop :=
  b.pol = p.refPolarity ∧ zerosBelow b.frame 80 % 2 = 0

/-- The frame register holds the sync word, or the zeros of reset (R45, R268). -/
def Block.SyncOk (b : Block) : Prop :=
  b.frame = 0 ∨ b.frame.extractLsb' 64 16 = BitVec.ofNat 16 syncWord

/-- The levels recorded since reset are the levels of the last samples the sink accepted
(R91, R348). -/
def State.OutputOk (s : State) : Prop := s.output <:+ s.sink.accepted.map Sample.level

/-- The invariant of the machine. -/
def State.Inv (s : State) : Prop :=
  s.blk.ReservedZero ∧ s.blk.ClockOk s.params ∧ s.blk.ErrorOk ∧ s.blk.RejectOk ∧ s.blk.RunOk ∧
    s.blk.PolarityOk s.params ∧ s.blk.SyncOk ∧ s.OutputOk

end Sys2Proof.Machine
end

