-- ==== Sys2Proof/Certificates/Slice0/Obligations.lean ====
section
/-!
DEFINITION. What is claimed of the machine, one `def Obligations.<Name> : Prop` each, from the
numbered rules of spec/. The helpers say a rule's numbers afresh, from the register words, so that a
claim does not repeat the definition it is about.
-/

namespace Sys2Proof.Claims

open Sys2Proof.Machine

/-- `v[lo+n-1:lo]` as a number (R7). -/
def bitsAt (v : Word) (lo n : Nat) : Nat := v.toNat / 2 ^ lo % 2 ^ n

/-- The acceptance code of a command word, by the numbers of R176. -/
def acceptance (v : Word) (busy clkValid : Bool) : Nat :=
  if 5 < bitsAt v 0 8 then 2
  else if bitsAt v 16 16 ≠ 0 then 3
  else if bitsAt v 0 8 = 5 ∧ bitsAt v 12 4 ≠ 0 then 3
  else if bitsAt v 0 8 ≠ 5 ∧ bitsAt v 8 8 ≠ 0 then 3
  else if busy = true ∧ 1 ≤ bitsAt v 0 8 ∧ bitsAt v 0 8 ≤ 4 then 1
  else if (bitsAt v 0 8 = 3 ∨ bitsAt v 0 8 = 4) ∧ clkValid = false then 4
  else 0

/-- `NOMINAL` by selector (R118). -/
def nominalOfSel (r : Nat) : Nat := [24, 25, 30, 30, 60, 60].getD r 0

/-- `DROP` by selector, for the two drop-frame rates (R120). -/
def dropOfSel (p : Params) (r : Nat) : Nat :=
  if r = 2 then 2 else if p.df5994Drop = .two then 2 else 4

/-- The code of the first failing check of R201, 0 if all pass, from the register words. -/
def validation (p : Params) (needSR : Bool) (b : Block) : Nat :=
  if 5 < bitsAt b.cfg 0 3 then 1
  else if bitsAt b.cfg 4 1 = 1 ∧ bitsAt b.cfg 0 3 ≠ 2 ∧ bitsAt b.cfg 0 3 ≠ 4 then 2
  else if needSR = true ∧ b.sampleRate.toNat = 0 then 3
  else if 23 < bitsAt b.tcStart 24 5 then 4
  else if 59 < bitsAt b.tcStart 16 6 then 5
  else if 59 < bitsAt b.tcStart 8 6 then 6
  else if nominalOfSel (bitsAt b.cfg 0 3) ≤ bitsAt b.tcStart 0 6 then 7
  else if bitsAt b.cfg 4 1 = 1 ∧ bitsAt b.tcStart 8 6 = 0 ∧ bitsAt b.tcStart 16 6 % 10 ≠ 0 ∧
      bitsAt b.tcStart 0 6 < dropOfSel p (bitsAt b.cfg 0 3) then 8
  else 0

/-- The kind of a check: 2 ConfigError for check 2, 1 ValidationError for the others (R381). -/
def kindOfCode (code : Nat) : Nat := if code = 2 then 2 else 1

/-- The timecode in `TC_START` (R33). -/
def startTc (b : Block) : Timecode where
  h := bitsAt b.tcStart 24 5
  m := bitsAt b.tcStart 16 6
  s := bitsAt b.tcStart 8 6
  f := bitsAt b.tcStart 0 6

/-- `UBE(UB, FIELD1)` (R243), by masks. -/
def ube (b : Block) : Word :=
  if b.field1.getLsbD 8 then (b.ub &&& 0xFFFFFFF0) ||| (b.field1 &&& 0xF) else b.ub

/-- The block with a command rejected (R391). -/
def rejected (b : Block) (code : Nat) : Block :=
  { b with reject := true, rejCode := BitVec.ofNat 3 code }

/-- The block with the clock loaded at rate `r`, after the bookkeeping of an accepted command and of
a passing validation (R175, R205). -/
def loaded (b : Block) (r : Rate) : Block :=
  { b with
    reject := false, rejCode := 0, errKind := 0, errCode := 0
    rate := r, df := decide (bitsAt b.cfg 4 1 = 1), clk := startTc b, clkValid := true }

/-- The number of frames a day counts: R216's periods. -/
def dayFrames (p : Params) (r : Rate) (df : Bool) : Nat :=
  if df = false then 24 * 3600 * r.nominal
  else if r = .fps2997 then 2589408
  else if p.df5994Drop = .two then 24 * (216000 - 54 * 2) else 5178816

/-- The count of timecodes before `t` in a day that skips nothing. -/
def frameIndex (r : Rate) (t : Timecode) : Nat := ((t.h * 60 + t.m) * 60 + t.s) * r.nominal + t.f

/-- The sync word, `F[64]` first (R127). -/
def syncBits : List Bool :=
  [false, false, true, true, true, true, true, true, true, true, true, true, true, true, false, true]

/-- The 16 bits of a frame from bit `w` are the sync pattern (R271). -/
def syncAt (F : FrameBits) (w : Nat) : Prop := ∀ i, i < 16 → F.getLsbD (w + i) = syncBits.getD i false

/-- One turn of EMIT's loop (R345). -/
def emitTurn (p : Params) (b : Block) : Block :=
  { b with
    pol := if 0 < b.frames then endPol b.frame b.pol else b.pol
    frame := assembleFrame b.clk b.rate b.df b.runCf b.runUbe b.runBgf
    clk := b.clk.advance p b.rate b.df
    frames := b.frames + 1 }

/-- An instant with the reset input low. -/
def instant (ready : Bool) (req : Request) : Instant :=
  { reset := false, sinkReady := ready, request := req }

/-- The state once an instant is reached. -/
def reached (s : State) (ready : Bool) (rest : List Instant) : State :=
  { s with pending := rest, sink := { s.sink with ready := ready } }

/-- `n` engine turns with a ready sink lie ahead, then `rest`. -/
def withEngine (s : State) (n : Nat) (rest : List Instant) : State :=
  { s with pending := List.replicate n engineInstant ++ rest }

/-- `k` engine turns with a ready sink add the same samples, level and PCM value, to what either state
has delivered. -/
def sameSamples (k : Nat) (t t' : State) : Prop :=
  ∃ (u u' : State) (new : List Sample),
    Host.Core.run Sys2Proof.core k (withEngine t k []) = .next u ∧
      Host.Core.run Sys2Proof.core k (withEngine t' k []) = .next u' ∧
      u.sink.accepted = t.sink.accepted ++ new ∧ u'.sink.accepted = t'.sink.accepted ++ new ∧
      u.output = t.output ++ new.map Sample.level ∧ u'.output = t'.output ++ new.map Sample.level

/-- The accesses of one line of a host program, made one after another with no other step between. -/
def runLine (op : HostOp) (s : State) (ready : Bool) (rest : List Instant) :
    Host.Outcome State Fault Refusal :=
  Host.Core.run Sys2Proof.core op.accesses.length
    { s with pending := hostProgram ready [op] ++ rest }

end Sys2Proof.Claims

open Sys2Proof Sys2Proof.Machine Sys2Proof.Claims

/-! ### Encoding -/

/-- Every well-formed instruction but EMIT has an encoding, and decoding it gives the instruction
back, for every operand; EMIT has none (R110 to R112, R115). -/
def Obligations.DecodeOfEncodeIsIdentity : Prop :=
  ∀ i : Instr, i.wellFormed = true →
    (i = .emit ∧ encode i = none) ∨ ∃ a, encode i = some a ∧ decode a = .ok i

/-- An access that decodes is the encoding of what it decodes to, up to the data word of a read,
which the block does not use; and it decodes to a well-formed instruction. -/
def Obligations.EncodeOfDecodeIsIdentity : Prop :=
  ∀ (a : Access) (i : Instr), decode a = .ok i →
    i.wellFormed = true ∧
      (encode i = some a ∨
        ∃ off data, i = .regRead off ∧ a = .bus 4 (busDesc false off) data)

/-- Words written out from R111 and R115 decode to the instructions they stand for. The two last
clauses number a row's bits as the opcode table does: that 16 bits are a bus descriptor in whole
bytes, and that its data word, to which the table gives no bits, is 0, is the model's choice (log
entry 13). -/
def Obligations.SpecWordsDecode : Prop :=
  decode (.cmd 0x00000000) = .ok .nop ∧ decode (.cmd 0x00000001) = .ok .start ∧
    decode (.cmd 0x00000002) = .ok .tcLoad ∧ decode (.cmd 0x00000003) = .ok .tcAdvance ∧
    decode (.cmd 0x00000004) = .ok .assemble ∧ decode (.cmd 0x00000505) = .ok (.ubMerge 0x5) ∧
    (∀ data, decode (.bus 4 0x008 data) = .ok (.regRead 0x08)) ∧
    (∀ data, decode (.bus 4 0x120 data) = .ok (.regWrite 0x20 data)) ∧
    decodeTableWord 32 0x00000F05 = some (.ubMerge 0xF) ∧
    decodeTableWord 16 0x104 = some (.regWrite 0x04 0)

/-- R113: a command with a reserved opcode, in either format, is rejected with code 2 and has no
other effect. -/
def Obligations.ReservedOpcodeRejected : Prop :=
  ∀ (s : State) (v : Word) (ready : Bool) (rest : List Instant) (a : Access),
    (a = .cmd v ∨ a = .bus 4 0x100 v) → 5 < bitsAt v 0 8 →
    s.pending = instant ready (.access a) :: rest →
    step s = .next { reached s ready rest with blk := rejected s.blk 2 }

/-- R112: UB_MERGE takes its mask from `ARG[3:0]`, and a command word with a defined opcode whose
reserved bits are not all 0 is rejected with code 3, with no other effect. -/
def Obligations.ArgumentAndReservedBits : Prop :=
  (∀ m : BitVec 4, decode (.cmd (BitVec.ofNat 32 (m.toNat * 256 + 5))) = .ok (.ubMerge m)) ∧
    ∀ (s : State) (v : Word) (ready : Bool) (rest : List Instant) (a : Access),
      (a = .cmd v ∨ a = .bus 4 0x100 v) → bitsAt v 0 8 ≤ 5 →
      (bitsAt v 16 16 ≠ 0 ∨ (bitsAt v 0 8 = 5 ∧ bitsAt v 12 4 ≠ 0) ∨
        (bitsAt v 0 8 ≠ 5 ∧ bitsAt v 8 8 ≠ 0)) →
      s.pending = instant ready (.access a) :: rest →
      step s = .next { reached s ready rest with blk := rejected s.blk 3 }

/-- A write of `v` to `CMD` has one step, whichever of the two formats gives it: a REG_WRITE to
offset 0x00 is a command (R115, R175; log entry 12). -/
def Obligations.CommandFormatsAgree : Prop :=
  ∀ (s : State) (v : Word),
    (∀ i, decode (.cmd v) = .ok i → exec (.regWrite 0x00 v) s = exec i s) ∧
      ∀ (ready : Bool) (rest : List Instant),
        step { s with pending := instant ready (.access (.cmd v)) :: rest } =
          step { s with pending := instant ready (.access (.bus 4 0x100 v)) :: rest }

/-! ### Steps -/

/-- A step runs the decoded instruction: at an instant with the reset input low, the host's access
that decodes to `i` makes the step `exec i` at the state with that instant taken (R14; log entry 1). -/
def Obligations.StepRunsDecodedInstruction : Prop :=
  ∀ (s : State) (a : Access) (i : Instr) (ready : Bool) (rest : List Instant),
    s.pending = instant ready (.access a) :: rest → decode a = .ok i →
    step s = exec i (reached s ready rest)

/-- The engine's turn is EMIT; an instant at which no agent asks to step changes nothing of the
block; and where no instant is left the step changes nothing (R14, R399; log entries 1 and 3). -/
def Obligations.EngineTurnIsEmit : Prop :=
  ∀ (s : State) (ready : Bool) (rest : List Instant),
    (s.pending = instant ready .engine :: rest → step s = exec .emit (reached s ready rest)) ∧
      (s.pending = instant ready .idle :: rest → step s = .next (reached s ready rest)) ∧
      (s.pending = [] → step s = .next s)

/-- An access of another width, or at an offset that is not a multiple of 4, is refused (R81). That
nothing else is, is the model's choice where the spec gives no step: with no instant left (log entry
3), for the engine's turn while EMIT is not enabled (log entry 10), and for such an access at an
instant that asserts reset (log entry 4), the step answers a next state. -/
def Obligations.OnlyNarrowOrMisalignedRefused : Prop :=
  ∀ s : State,
    (∃ t, step s = .next t) ↔
      ¬ ∃ (ready : Bool) (rest : List Instant) (bytes : Nat) (desc : BitVec 9) (data : Word),
        s.pending = instant ready (.access (.bus bytes desc data)) :: rest ∧
          (bytes ≠ 4 ∨ desc.toNat % 4 ≠ 0)

/-- R430 and R63: at an instant with the reset input asserted the step sets every element of the
block to its reset value, whatever an agent asks for at that instant; samples already delivered stay
delivered; and after it `STATUS` and `TC_NOW` read 0 and `LEVEL` reads `REF_POLARITY`. -/
def Obligations.ResetStepSetsEveryElement : Prop :=
  ∀ (s : State) (ready : Bool) (req : Request) (rest : List Instant),
    s.pending = { reset := true, sinkReady := ready, request := req } :: rest →
    ∃ t, step s = .next t ∧
      t.blk =
        { cfg := 0, tcStart := 0, ub := 0, ubStage := 0, bgf := 0, field1 := 0, sampleRate := 0,
          duration := 0, clk := ⟨0, 0, 0, 0⟩, clkValid := false, rate := .fps24, df := false,
          runCf := false, runUbe := 0, runBgf := 0, runSr := 0, runN := 0, frame := 0,
          pol := s.params.refPolarity, level := s.params.refPolarity, busy := false, done := false,
          errKind := 0, errCode := 0, reject := false, rejCode := 0, samples := 0, frames := 0 } ∧
      t.sink.accepted = s.sink.accepted ∧ t.blk.readWord 0x04 = 0 ∧ t.blk.readWord 0x28 = 0 ∧
      (t.blk.readWord 0x40).toNat = s.params.refPolarity.toNat

/-- What reset leaves of the agents around the block, which is the model's choice (log entry 4): the
record of levels begins anew (R348), and the parameters, the words returned to the host and the
instants to come stay. -/
def Obligations.ResetLeavesTheAgents : Prop :=
  ∀ (s : State) (ready : Bool) (req : Request) (rest : List Instant),
    s.pending = { reset := true, sinkReady := ready, request := req } :: rest →
    ∃ t, step s = .next t ∧ t.output = [] ∧
      t.sink = { ready := ready, accepted := s.sink.accepted } ∧ t.params = s.params ∧
      t.replies = s.replies ∧ t.pending = rest

/-- R432: from the reset state of the block, at every parameter value, START fails with
ValidationError 3, and TC_LOAD loads 00:00:00:00 at 24 fps, non-drop. -/
def Obligations.CommandsRightAfterReset : Prop :=
  ∀ s : State, s.blk = Block.atReset s.params →
    exec .start s = .next { s with blk := { s.blk with errKind := 1, errCode := 3 } } ∧
      exec .tcLoad s = .next { s with blk := { s.blk with clkValid := true } }

/-! ### Registers -/

/-- REG_READ of a configuration register returns its stored word, reserved bits 0; `CMD` and every
reserved offset read 0; and the read completes, changing nothing but the words the host has
received. -/
def Obligations.ReadConfigurationRegisters : Prop :=
  ∀ (s : State) (off : Offset), off.toNat % 4 = 0 →
    ∃ v : Word, exec (.regRead off) s = .next { s with replies := s.replies ++ [v] } ∧
      (off = 0x00 → v = 0) ∧
      (off = 0x08 → v = s.blk.cfg &&& 0x00000037) ∧
      (off = 0x0C → v = s.blk.tcStart &&& 0x1F3F3F3F) ∧
      (off = 0x10 → v = s.blk.ub) ∧
      (off = 0x14 → v = s.blk.ubStage) ∧
      (off = 0x18 → v = s.blk.bgf &&& 0x000000FF) ∧
      (off = 0x1C → v = s.blk.field1 &&& 0x0000010F) ∧
      (off = 0x20 → v = s.blk.sampleRate) ∧
      (off = 0x24 → v = s.blk.duration) ∧
      (0x48 ≤ off.toNat → v = 0)

/-- REG_READ of a status or result register returns the view of R41 to R47: `STATUS` field by field,
`TC_NOW` for a clock whose values fit their fields, the counters modulo 2^32, the frame bit by bit,
the level, and the clock's rate and drop mode. -/
def Obligations.ReadStatusAndResultRegisters : Prop :=
  ∀ (s : State) (off : Offset), off.toNat % 4 = 0 →
    ∃ v : Word, exec (.regRead off) s = .next { s with replies := s.replies ++ [v] } ∧
      (off = 0x04 → v.toNat =
        s.blk.busy.toNat + 2 * s.blk.done.toNat + 4 * s.blk.errKind.toNat
          + 16 * s.blk.errCode.toNat + 256 * s.blk.reject.toNat + 512 * s.blk.rejCode.toNat) ∧
      (off = 0x28 → s.blk.clk.h < 32 → s.blk.clk.m < 64 → s.blk.clk.s < 64 → s.blk.clk.f < 64 →
        v.toNat = s.blk.clk.f + 2 ^ 8 * s.blk.clk.s + 2 ^ 16 * s.blk.clk.m + 2 ^ 24 * s.blk.clk.h
          + 2 ^ 31 * s.blk.clkValid.toNat) ∧
      (off = 0x2C → v.toNat = s.blk.samples % 2 ^ 32) ∧
      (off = 0x30 → v.toNat = s.blk.frames % 2 ^ 32) ∧
      (off = 0x34 → ∀ i, i < 32 → v.getLsbD i = s.blk.frame.getLsbD i) ∧
      (off = 0x38 → ∀ i, i < 32 → v.getLsbD i = s.blk.frame.getLsbD (32 + i)) ∧
      (off = 0x3C → v.toNat < 2 ^ 16 ∧ ∀ i, i < 16 → v.getLsbD i = s.blk.frame.getLsbD (64 + i)) ∧
      (off = 0x40 → v.toNat = s.blk.level.toNat) ∧
      (off = 0x44 → v.toNat = s.blk.rate.sel.toNat + 16 * s.blk.df.toNat)

/-- REG_WRITE at an offset other than that of `CMD` completes at every aligned offset: it stores the
masked word in the register at that offset (R93) and changes nothing else; at a read-only register or
a reserved offset it changes nothing at all. -/
def Obligations.WriteStoresMaskedWord : Prop :=
  ∀ (s : State) (v : Word),
    exec (.regWrite 0x08 v) s = .next { s with blk := { s.blk with cfg := v &&& 0x00000037 } } ∧
    exec (.regWrite 0x0C v) s = .next { s with blk := { s.blk with tcStart := v &&& 0x1F3F3F3F } } ∧
    exec (.regWrite 0x14 v) s = .next { s with blk := { s.blk with ubStage := v } } ∧
    exec (.regWrite 0x18 v) s = .next { s with blk := { s.blk with bgf := v &&& 0x000000FF } } ∧
    exec (.regWrite 0x1C v) s = .next { s with blk := { s.blk with field1 := v &&& 0x0000010F } } ∧
    exec (.regWrite 0x20 v) s = .next { s with blk := { s.blk with sampleRate := v } } ∧
    exec (.regWrite 0x24 v) s = .next { s with blk := { s.blk with duration := v } } ∧
    ∀ off : Offset, off.toNat % 4 = 0 →
      off ∉ [(0x00 : Offset), 0x08, 0x0C, 0x14, 0x18, 0x1C, 0x20, 0x24] →
      exec (.regWrite off v) s = .next s

/-- R84: a reserved offset reads 0 and ignores writes; `CMD` reads 0; a write to a read-only register
is ignored; reserved bits of a read/write register read 0 and writes to them are discarded (the
masks are those of R93). -/
def Obligations.ReservedAndReadOnlySpace : Prop :=
  (∀ (s : State) (off : Offset) (v : Word), off.toNat % 4 = 0 → 0x48 ≤ off.toNat →
    exec (.regRead off) s = .next { s with replies := s.replies ++ [0] } ∧
      exec (.regWrite off v) s = .next s) ∧
  (∀ s : State, exec (.regRead 0x00) s = .next { s with replies := s.replies ++ [0] }) ∧
  (∀ (s : State) (off : Offset) (v : Word),
    off ∈ [(0x04 : Offset), 0x10, 0x28, 0x2C, 0x30, 0x34, 0x38, 0x3C, 0x40, 0x44] →
    exec (.regWrite off v) s = .next s) ∧
  (∀ (s : State) (off : Offset) (mask : Word),
    (off, mask) ∈ [((0x08 : Offset), (0x00000037 : Word)), (0x0C, 0x1F3F3F3F), (0x14, 0xFFFFFFFF),
      (0x18, 0x000000FF), (0x1C, 0x0000010F), (0x20, 0xFFFFFFFF), (0x24, 0xFFFFFFFF)] →
    s.blk.readWord off &&& ~~~mask = 0 ∧
      ∀ v w : Word, v &&& mask = w &&& mask → exec (.regWrite off v) s = exec (.regWrite off w) s)

/-- R85: no read changes any state of the block, its output or the sink; a repeated write at any
offset but that of `CMD` stores the same value again; and such a write changes no register it is not
addressed to and nothing of the working state. -/
def Obligations.ReadsHaveNoSideEffect : Prop :=
  ∀ (s t : State) (off : Offset) (v : Word),
    (exec (.regRead off) s = .next t →
      t.blk = s.blk ∧ t.output = s.output ∧ t.sink = s.sink ∧ t.params = s.params ∧
        t.pending = s.pending) ∧
    (off ≠ 0x00 → exec (.regWrite off v) s = .next t →
      exec (.regWrite off v) t = .next t ∧
        t = { s with blk := { s.blk with
          cfg := t.blk.cfg, tcStart := t.blk.tcStart, ubStage := t.blk.ubStage, bgf := t.blk.bgf,
          field1 := t.blk.field1, sampleRate := t.blk.sampleRate, duration := t.blk.duration } } ∧
        ∀ off' : Offset, off' ≠ off → t.blk.readWord off' = s.blk.readWord off')

/-- Read after write: a register read back after a write gives the written word under the write mask
of R93. -/
def Obligations.ReadAfterWriteGivesMaskedWord : Prop :=
  ∀ (s : State) (off : Offset) (mask v : Word),
    (off, mask) ∈ [((0x08 : Offset), (0x00000037 : Word)), (0x0C, 0x1F3F3F3F), (0x14, 0xFFFFFFFF),
      (0x18, 0x000000FF), (0x1C, 0x0000010F), (0x20, 0xFFFFFFFF), (0x24, 0xFFFFFFFF)] →
    ∃ t, exec (.regWrite off v) s = .next t ∧
      exec (.regRead off) t = .next { t with replies := t.replies ++ [v &&& mask] }

/-! ### Commands -/

/-- R176 and R177: a write to `CMD` always completes; it sets `REJECT` and `REJ_CODE` to the outcome
of the acceptance checks, in their order; a rejected command has no other effect; and `ERR_KIND` and
`ERR_CODE` change only in an accepted START or TC_LOAD. -/
def Obligations.CommandAcceptance : Prop :=
  ∀ (s : State) (v : Word), ∃ t,
    exec (.regWrite 0x00 v) s = .next t ∧
      t.blk.rejCode.toNat = acceptance v s.blk.busy s.blk.clkValid ∧
      (t.blk.reject = true ↔ acceptance v s.blk.busy s.blk.clkValid ≠ 0) ∧
      (acceptance v s.blk.busy s.blk.clkValid ≠ 0 →
        t = { s with blk := rejected s.blk (acceptance v s.blk.busy s.blk.clkValid) }) ∧
      ((acceptance v s.blk.busy s.blk.clkValid ≠ 0 ∨
          (bitsAt v 0 8 ≠ 1 ∧ bitsAt v 0 8 ≠ 2)) →
        t.blk.errKind = s.blk.errKind ∧ t.blk.errCode = s.blk.errCode)

/-- R178: NOP completes in every state, busy or not, and clears `REJECT` and `REJ_CODE`, changing
nothing else; a word with opcode 0 and any other bit set is rejected with code 3. -/
def Obligations.NopClearsRejection : Prop :=
  ∀ s : State,
    exec .nop s = .next { s with blk := { s.blk with reject := false, rejCode := 0 } } ∧
      exec (.regWrite 0x00 0x00000000) s = exec .nop s ∧
      ∀ v : Word, bitsAt v 0 8 = 0 → bitsAt v 8 24 ≠ 0 →
        exec (.regWrite 0x00 v) s = .next { s with blk := rejected s.blk 3 }

/-- R241: UB_MERGE completes in every state, busy or not: each byte of `UB` whose mask bit is 1 is
replaced by that of `UB_STAGE`, and nothing else changes but the cleared rejection fields; a word
with opcode 5 and `ARG[7:4]` or the high half not 0 is rejected with code 3. -/
def Obligations.UbMergeReplacesSuppliedGroups : Prop :=
  ∀ (s : State) (m : BitVec 4),
    (∃ u : Word,
      exec (.ubMerge m) s =
        .next { s with blk := { s.blk with reject := false, rejCode := 0, ub := u } } ∧
      ∀ i, i < 32 → u.getLsbD i =
        if m.getLsbD (i / 8) then s.blk.ubStage.getLsbD i else s.blk.ub.getLsbD i) ∧
    exec (.regWrite 0x00 (BitVec.ofNat 32 (m.toNat * 256 + 5))) s = exec (.ubMerge m) s ∧
    ∀ v : Word, bitsAt v 0 8 = 5 → (bitsAt v 12 4 ≠ 0 ∨ bitsAt v 16 16 ≠ 0) →
      exec (.regWrite 0x00 v) s = .next { s with blk := rejected s.blk 3 }

/-- `UB` changes only by a UB_MERGE command or by reset (R34). -/
def Obligations.UbChangesOnlyByMergeOrReset : Prop :=
  ∀ s t : State, step s = .next t → t.blk.ub ≠ s.blk.ub →
    ∃ (x : Instant) (rest : List Instant), s.pending = x :: rest ∧
      (x.reset = true ∨
        ∃ v : Word, bitsAt v 0 8 = 5 ∧
          (x.request = .access (.cmd v) ∨ x.request = .access (.bus 4 0x100 v)))

/-- R205: TC_LOAD, a write of 0x00000002 to `CMD`. While a run is in progress it is rejected with code 1. Otherwise it validates
without the sample rate: on an error only the error fields (and the rejection fields of an accepted
command) change; on a pass the clock takes the configuration, the error fields are cleared, and
nothing else changes. A second TC_LOAD then changes nothing. -/
def Obligations.TcLoadResult : Prop :=
  ∀ s : State,
    exec (.regWrite 0x00 0x00000002) s = exec .tcLoad s ∧
    (s.blk.busy = true → exec .tcLoad s = .next { s with blk := rejected s.blk 1 }) ∧
    (s.blk.busy = false → validation s.params false s.blk ≠ 0 →
      exec .tcLoad s = .next { s with blk := { s.blk with
        reject := false, rejCode := 0
        errKind := BitVec.ofNat 2 (kindOfCode (validation s.params false s.blk))
        errCode := BitVec.ofNat 4 (validation s.params false s.blk) } }) ∧
    (s.blk.busy = false → validation s.params false s.blk = 0 →
      ∃ r : Rate, r.sel.toNat = bitsAt s.blk.cfg 0 3 ∧
        exec .tcLoad s = .next { s with blk := loaded s.blk r } ∧
        exec .tcLoad { s with blk := loaded s.blk r } = .next { s with blk := loaded s.blk r })

/-- R206: TC_ADVANCE, a write of 0x00000003 to `CMD`. It is rejected with code 1 while a run is in progress and with code 4 where the
clock is not loaded; otherwise the clock advances one frame under its own rate and drop mode, and
nothing else changes but the cleared rejection fields. -/
def Obligations.TcAdvanceResult : Prop :=
  ∀ s : State,
    exec (.regWrite 0x00 0x00000003) s = exec .tcAdvance s ∧
    (s.blk.busy = true → exec .tcAdvance s = .next { s with blk := rejected s.blk 1 }) ∧
    (s.blk.busy = false → s.blk.clkValid = false →
      exec .tcAdvance s = .next { s with blk := rejected s.blk 4 }) ∧
    (s.blk.busy = false → s.blk.clkValid = true →
      exec .tcAdvance s = .next { s with blk := { s.blk with
        reject := false, rejCode := 0
        clk := s.blk.clk.advance s.params s.blk.rate s.blk.df } })

/-- R270: ASSEMBLE, a write of 0x00000004 to `CMD`. It is rejected with code 1 while a run is in progress and with code 4 where the
clock is not loaded; otherwise the frame register takes the frame of the clock, under the clock's
rate and drop mode and the present colour flag, effective user bits and binary-group flags, and
nothing else changes but the cleared rejection fields. -/
def Obligations.AssembleResult : Prop :=
  ∀ s : State,
    exec (.regWrite 0x00 0x00000004) s = exec .assemble s ∧
    (s.blk.busy = true → exec .assemble s = .next { s with blk := rejected s.blk 1 }) ∧
    (s.blk.busy = false → s.blk.clkValid = false →
      exec .assemble s = .next { s with blk := rejected s.blk 4 }) ∧
    (s.blk.busy = false → s.blk.clkValid = true →
      exec .assemble s = .next { s with blk := { s.blk with
        reject := false, rejCode := 0
        frame := assembleFrame s.blk.clk s.blk.rate s.blk.df (s.blk.cfg.getLsbD 5) (ube s.blk)
          (BitVec.ofNat 8 (bitsAt s.blk.bgf 0 8)) } })

/-- R341, START, a write of 0x00000001 to `CMD`, accepted, that passes validation: the snapshot is taken, the clock loaded, the
counters and the polarity set, and the run begins, or ends at once for a duration of 0; the frame
register and everything else stay. -/
def Obligations.StartBeginsRun : Prop :=
  (∀ s : State, exec (.regWrite 0x00 0x00000001) s = exec .start s) ∧
  ∀ s : State, s.blk.busy = false → validation s.params true s.blk = 0 →
    ∃ r : Rate, r.sel.toNat = bitsAt s.blk.cfg 0 3 ∧
      exec .start s = .next { s with blk := { loaded s.blk r with
        runCf := s.blk.cfg.getLsbD 5
        runUbe := ube s.blk
        runBgf := BitVec.ofNat 8 (bitsAt s.blk.bgf 0 8)
        runSr := s.blk.sampleRate
        runN := s.blk.duration
        samples := 0
        frames := 0
        pol := s.params.refPolarity
        level := s.params.refPolarity
        busy := decide (s.blk.duration.toNat ≠ 0)
        done := decide (s.blk.duration.toNat = 0) } }

/-- R384 and R341's errors: a START that fails validation clears `DONE`, writes the kind and the code
of the first failing check, and does nothing else: no run begins, no frame is assembled and no sample
emitted. That `w.LEVEL` too stays as it was, where R46's words could give `REF_POLARITY`, is the model's
choice (log entry 21). While a run is in progress START is rejected with code 1. -/
def Obligations.StartFailsOrIsRejected : Prop :=
  ∀ s : State,
    (s.blk.busy = false → validation s.params true s.blk ≠ 0 →
      exec .start s = .next { s with blk := { s.blk with
        reject := false, rejCode := 0, done := false
        errKind := BitVec.ofNat 2 (kindOfCode (validation s.params true s.blk))
        errCode := BitVec.ofNat 4 (validation s.params true s.blk) } }) ∧
    (s.blk.busy = true → exec .start s = .next { s with blk := rejected s.blk 1 })

/-- R383: the error fields change only by an accepted START or TC_LOAD, or by reset. -/
def Obligations.ErrorFieldsStayUntilValidation : Prop :=
  ∀ s t : State, step s = .next t →
    (t.blk.errKind ≠ s.blk.errKind ∨ t.blk.errCode ≠ s.blk.errCode) →
    ∃ (x : Instant) (rest : List Instant), s.pending = x :: rest ∧
      (x.reset = true ∨
        (s.blk.busy = false ∧ ∃ v : Word, (v = 0x00000001 ∨ v = 0x00000002) ∧
          (x.request = .access (.cmd v) ∨ x.request = .access (.bus 4 0x100 v))))

/-! ### The clock -/

/-- The advance of a valid timecode is valid (R215). -/
def Obligations.AdvanceKeepsValidity : Prop :=
  ∀ (p : Params) (r : Rate) (df : Bool) (t : Timecode), (df = true → r.dfAllowed = true) →
    t.valid p r df = true → (t.advance p r df).valid p r df = true

/-- R214: non-drop counting never skips a frame value, at any rate: each advance counts the next of
`24 x 3600 x NOMINAL(r)` frames of the day, and frame 0 follows a rolled second. -/
def Obligations.NonDropNeverSkips : Prop :=
  ∀ (p : Params) (r : Rate) (t : Timecode), t.valid p r false = true →
    frameIndex r (t.advance p r false) = (frameIndex r t + 1) % (24 * 3600 * r.nominal) ∧
      (t.f + 1 = r.nominal → (t.advance p r false).f = 0)

/-- R213: in drop mode, at a minute change into a minute not divisible by 10 the frame value becomes 2
at 29.97 and `DF5994_DROP` at 59.94; at every other advance nothing is skipped. -/
def Obligations.DropFrameSkipsAtMinuteChange : Prop :=
  ∀ (p : Params) (r : Rate) (t : Timecode), r.dfAllowed = true → t.valid p r true = true →
    (t.s = 59 ∧ t.f + 1 = r.nominal ∧ (t.m + 1) % 10 ≠ 0 →
      t.advance p r true =
        { h := t.h, m := t.m + 1, s := 0,
          f := if r = .fps2997 then 2 else if p.df5994Drop = .two then 2 else 4 }) ∧
    (¬ (t.s = 59 ∧ t.f + 1 = r.nominal ∧ (t.m + 1) % 10 ≠ 0) →
      t.advance p r true = t.advance p r false)

/-- R212: seconds and minutes wrap at 60 and hours at 24, each with a carry into the next field, and
the last frame of the day advances to 00:00:00:00, with no skip. -/
def Obligations.AdvanceCascades : Prop :=
  ∀ (p : Params) (r : Rate) (df : Bool) (h m s f : Nat), (df = true → r.dfAllowed = true) →
    Timecode.valid p r df ⟨h, m, s, f⟩ = true → f + 1 = r.nominal →
    (s < 59 → Timecode.advance p r df ⟨h, m, s, f⟩ = ⟨h, m, s + 1, 0⟩) ∧
    (s = 59 → m < 59 → ∃ f', Timecode.advance p r df ⟨h, m, s, f⟩ = ⟨h, m + 1, 0, f'⟩) ∧
    (s = 59 → m = 59 → h < 23 → Timecode.advance p r df ⟨h, m, s, f⟩ = ⟨h + 1, 0, 0, 0⟩) ∧
    (s = 59 → m = 59 → h = 23 → Timecode.advance p r df ⟨h, m, s, f⟩ = ⟨0, 0, 0, 0⟩)

/-- The period of the clock (R216): from any valid timecode the clock returns to it after exactly the
frames of a day, and not before. -/
def Obligations.ClockPeriodIsOneDay : Prop :=
  ∀ (p : Params) (r : Rate) (df : Bool) (t : Timecode), (df = true → r.dfAllowed = true) →
    t.valid p r df = true →
    (Timecode.advance p r df)^[dayFrames p r df] t = t ∧
      ∀ k, 0 < k → k < dayFrames p r df → (Timecode.advance p r df)^[k] t ≠ t

/-! ### The frame -/

/-- R268: bits 64 to 79 of an assembled frame are the sync word, whatever the inputs (its value is
R127's). -/
def Obligations.SyncWordIsFinalSixteenBits : Prop :=
  ∀ (t : Timecode) (r : Rate) (df cf : Bool) (U : Word) (G : BitVec 8) (i : Nat), i < 16 →
    (assembleFrame t r df cf U G).getLsbD (64 + i) = syncBits.getD i false

/-- R267: the polarity-correction bit, bit 27, or bit 59 at 25 fps, is the XOR of all other bits, and
so 1 XOR the XOR of the other bits below 64; the frame holds an even number of 1 bits and an even
number of 0 bits. -/
def Obligations.PolarityCorrectionMakesCountsEven : Prop :=
  ∀ (t : Timecode) (r : Rate) (df cf : Bool) (U : Word) (G : BitVec 8) (F : FrameBits) (pc : Nat),
    F = assembleFrame t r df cf U G → pc = (if r = .fps25 then 59 else 27) →
    F.getLsbD pc = ((List.range 80).filter (· ≠ pc)).foldl (fun x i => x ^^ F.getLsbD i) false ∧
      F.getLsbD pc = ((List.range 64).filter (· ≠ pc)).foldl (fun x i => x ^^ F.getLsbD i) true ∧
      (List.range 80).countP (fun i => F.getLsbD i) % 2 = 0 ∧
      (List.range 80).countP (fun i => !F.getLsbD i) % 2 = 0

/-- The digits of a frame (R125, R128, R263): each timecode digit stands in its field, least
significant bit first, the frame tens modulo 4; so decoding gives the timecode back, with a frame
value of 40 or more as `f - 40` (R269). -/
def Obligations.DigitsDecodeToTimecode : Prop :=
  ∀ (p : Params) (t : Timecode) (r : Rate) (df cf : Bool) (U : Word) (G : BitVec 8) (F : FrameBits),
    t.valid p r df = true → F = assembleFrame t r df cf U G →
    fieldOf F 0 4 = t.f % 10 ∧ fieldOf F 8 2 = t.f / 10 % 4 ∧
      fieldOf F 16 4 = t.s % 10 ∧ fieldOf F 24 3 = t.s / 10 ∧
      fieldOf F 32 4 = t.m % 10 ∧ fieldOf F 40 3 = t.m / 10 ∧
      fieldOf F 48 4 = t.h % 10 ∧ fieldOf F 56 2 = t.h / 10 ∧
      decodedTimecode F = { t with f := if t.f < 40 then t.f else t.f - 40 }

/-- R130: nibble `k` of the payload stands in user-bits field `k`, least significant bit at the lowest
frame bit, so group `g` fills nibbles `2g+1` and `2g+2`. -/
def Obligations.UserBitsPlacement : Prop :=
  ∀ (t : Timecode) (r : Rate) (df cf : Bool) (U : Word) (G : BitVec 8) (F : FrameBits),
    F = assembleFrame t r df cf U G →
    (∀ k i, 1 ≤ k → k ≤ 8 → i < 4 → F.getLsbD (8 * k - 4 + i) = U.getLsbD (4 * k - 4 + i)) ∧
      ∀ g, g < 4 →
        fieldOf F (16 * g + 4) 4 = bitsAt U (8 * g) 4 ∧
        fieldOf F (16 * g + 12) 4 = bitsAt U (8 * g + 4) 4

/-- R243: the payload an assembly places is `UB` with the low nibble replaced by `FIELD1.VALUE` while
`FIELD1.EN` is 1: so after ASSEMBLE frame bits 4 to 7 carry `FIELD1.VALUE` or `UB[3:0]`, and the
other user-bits fields those of `UB`; and START snapshots the same payload. -/
def Obligations.Field1OverridesFirstNibble : Prop :=
  ∀ s t : State, s.blk.busy = false → s.blk.clkValid = true →
    (exec .assemble s = .next t →
      fieldOf t.blk.frame 4 4 =
        (if s.blk.field1.getLsbD 8 then bitsAt s.blk.field1 0 4 else bitsAt s.blk.ub 0 4) ∧
      ∀ k, 2 ≤ k → k ≤ 8 → fieldOf t.blk.frame (8 * k - 4) 4 = bitsAt s.blk.ub (4 * k - 4) 4) ∧
    (exec .start s = .next t → validation s.params true s.blk = 0 → t.blk.runUbe = ube s.blk)

/-- R132, with the positions of R122 and the flags of R265 and R266: BGF0 to BGF2 stand at bits 43,
58, 59, at 25 fps at bits 27, 58, 43; the drop-frame flag at bit 10 and the colour-frame flag at bit
11; and `FLAGS[7:3]` reach no frame bit. -/
def Obligations.FrameFlagsByRate : Prop :=
  ∀ (t : Timecode) (r : Rate) (df cf : Bool) (U : Word) (G G' : BitVec 8) (F : FrameBits),
    F = assembleFrame t r df cf U G →
    F.getLsbD 10 = df ∧ F.getLsbD 11 = cf ∧
      F.getLsbD (if r = .fps25 then 27 else 43) = G.getLsbD 0 ∧
      F.getLsbD 58 = G.getLsbD 1 ∧
      F.getLsbD (if r = .fps25 then 43 else 59) = G.getLsbD 2 ∧
      (G.toNat % 8 = G'.toNat % 8 → F = assembleFrame t r df cf U G')

/-- The sync pattern inside the data bits (R271): a window that starts below bit 64 holds it only at
59.94 fps in drop mode with the colour flag set and a frame value of 30 to 39, in exactly the four
windows of R271's table. -/
def Obligations.SyncPatternInDataBits : Prop :=
  ∀ (p : Params) (t : Timecode) (r : Rate) (df cf : Bool) (U : Word) (G : BitVec 8) (w : Nat),
    (df = true → r.dfAllowed = true) → t.valid p r df = true → w < 64 →
    (syncAt (assembleFrame t r df cf U G) w ↔
      r = .fps5994 ∧ df = true ∧ cf = true ∧ t.f / 10 = 3 ∧
        ((w = 1 ∧ 8 ≤ t.f % 10 ∧ bitsAt U 0 4 = 0xF ∧ bitsAt U 4 4 = 0x7 ∧ t.s % 2 = 1) ∨
          (w = 2 ∧ t.f % 10 ≤ 3 ∧ bitsAt U 0 4 = 0xF ∧ bitsAt U 4 4 = 0xF ∧
            (t.s % 10 = 2 ∨ t.s % 10 = 6)) ∨
          (w = 3 ∧ t.f % 10 ≤ 7 ∧ bitsAt U 0 4 = 0xE ∧ bitsAt U 4 4 = 0xF ∧ t.s % 10 = 5) ∨
          (w = 5 ∧ (bitsAt U 0 4 = 0x8 ∨ bitsAt U 0 4 = 0x9) ∧ bitsAt U 4 4 = 0xF ∧
            t.s % 10 = 7 ∧ bitsAt U 8 4 % 2 = 1)))

/-! ### The modulator -/

/-- R304: the two half-bit levels of bit `i` of a frame, under each convention, from the polarity
before the bit, which a 0 bit inverts and a 1 bit leaves. -/
def Obligations.HalfBitLevels : Prop :=
  ∀ (F : FrameBits) (P : Bool), polAtBit F P 0 = P ∧
    ∀ i, i < 80 →
      polAtBit F P (i + 1) = (polAtBit F P i ^^ F.getLsbD i ^^ true) ∧
      halfLevel .doc F P (2 * i) = (polAtBit F P i ^^ F.getLsbD i) ∧
      halfLevel .doc F P (2 * i + 1) = polAtBit F P (i + 1) ∧
      halfLevel .smpte F P (2 * i) = !(polAtBit F P i) ∧
      halfLevel .smpte F P (2 * i + 1) = polAtBit F P (i + 1)

/-- Transitions (R305), with the polarity on entry as the level before half-bit 0: under DOC the
midpoint of a bit always has one and the start exactly for a 1 bit, under SMPTE the other way about;
and the last half-bit of a frame is its end polarity. -/
def Obligations.TransitionsCarryTheBits : Prop :=
  ∀ (c : BmcConvention) (F : FrameBits) (P : Bool),
    (∀ i, i < 80 →
      let before := if i = 0 then P else halfLevel c F P (2 * i - 1)
      (halfLevel c F P (2 * i) ≠ before ↔ (c = .smpte ∨ F.getLsbD i = true)) ∧
        (halfLevel c F P (2 * i + 1) ≠ halfLevel c F P (2 * i) ↔ (c = .doc ∨ F.getLsbD i = true))) ∧
      halfLevel c F P 159 = endPol F P

/-- Every assembled frame ends at the polarity it was entered at (R307, R309). -/
def Obligations.AssembledFrameKeepsPolarity : Prop :=
  ∀ (t : Timecode) (r : Rate) (df cf : Bool) (U : Word) (G : BitVec 8) (P : Bool),
    endPol (assembleFrame t r df cf U G) P = P

/-- The boundaries of the sample grid (R311): half-bit `j` holds exactly the samples from
`ceil(j x K / D)` up to `ceil((j+1) x K / D)`, and frames `0..k-1` together hold
`S(k) = ceil(k x SR x DEN / NUM)` samples. -/
def Obligations.GridBoundaries : Prop :=
  ∀ (r : Rate) (sr : Nat), 0 < sr →
    (∀ j s, halfBitOf r sr s = j ↔ firstSample r sr j ≤ s ∧ s < firstSample r sr (j + 1)) ∧
      (∀ k, firstSample r sr (160 * k) = samplesOfFrames r sr k) ∧
      ∀ k s, halfBitOf r sr s / 160 < k ↔ s < samplesOfFrames r sr k

/-- The incremental form (R312): the accumulator gives the half-bit of every sample, with its
invariant. -/
def Obligations.AccumulatorComputesGrid : Prop :=
  ∀ (r : Rate) (sr s : Nat), 0 < sr →
    (GridAcc.before (gridK r sr) (gridD r) s).j = halfBitOf r sr s ∧
      s * gridD r = (GridAcc.before (gridK r sr) (gridD r) s).j * gridK r sr
        + (GridAcc.before (gridK r sr) (gridD r) s).acc ∧
      (GridAcc.before (gridK r sr) (gridD r) s).acc < gridK r sr

/-- No drift (R313): the samples of `k` whole frames differ from the exact `k x SR x DEN / NUM` by less
than 1, and those of one frame are the floor or the ceiling of the real count per frame. -/
def Obligations.SampleCountsDoNotDrift : Prop :=
  ∀ (r : Rate) (sr k : Nat),
    k * (sr * r.den) ≤ samplesOfFrames r sr k * r.num ∧
      samplesOfFrames r sr k * r.num < k * (sr * r.den) + r.num ∧
      (samplesOfFrames r sr (k + 1) - samplesOfFrames r sr k = sr * r.den / r.num ∨
        samplesOfFrames r sr (k + 1) - samplesOfFrames r sr k = ceilDiv (sr * r.den) r.num)

/-! ### Runs -/

/-- R345: EMIT is enabled exactly when a run is in progress and the sink is ready. Enabled, it completes:
it assembles the frames up to that of the sample's half-bit `j`, emits the level at position
`j mod 160`, counts the sample, and ends the run with the last one; the configuration registers, the
snapshot, the error and rejection fields and the agents around the block are unchanged, but for the
sample that passes, with its PCM value of R349. Not enabled, it changes nothing (log entry 10). -/
def Obligations.EmitProducesOneSample : Prop :=
  ∀ s : State,
    (s.blk.busy = true → s.sink.ready = true →
      let j := halfBitOf s.blk.rate s.blk.runSr.toNat s.blk.samples
      let b := (emitTurn s.params)^[j / 160 + 1 - s.blk.frames] s.blk
      let lev := halfLevel s.params.bmc b.frame b.pol (j % 160)
      let last := s.blk.samples + 1 = s.blk.runN.toNat
      exec .emit s = .next { s with
        blk := { s.blk with
          pol := b.pol, frame := b.frame, clk := b.clk, frames := b.frames, level := lev,
          samples := s.blk.samples + 1
          busy := decide (¬ last), done := s.blk.done || decide last }
        output := s.output ++ [lev]
        sink := { s.sink with accepted := s.sink.accepted ++
          [{ level := lev, pcm := BitVec.ofInt 16 (if lev then Config.amp else -Config.amp) }] } }) ∧
    ((s.blk.busy = false ∨ s.sink.ready = false) → exec .emit s = .next s)

/-- R350: the EMIT that makes `w.S = w.N` ends the run, with `BUSY` 0 and `DONE` 1 in that step, and a
run ends in no other way but reset. -/
def Obligations.RunEndsOnlyByLastSampleOrReset : Prop :=
  (∀ s : State, s.blk.busy = true → s.sink.ready = true → s.blk.samples + 1 = s.blk.runN.toNat →
    ∃ t, exec .emit s = .next t ∧ t.blk.samples = t.blk.runN.toNat ∧ t.blk.busy = false ∧
      t.blk.done = true) ∧
  ∀ s t : State, step s = .next t → s.blk.busy = true → t.blk.busy = false →
    ∃ (x : Instant) (rest : List Instant), s.pending = x :: rest ∧
      (x.reset = true ∨
        (x.request = .engine ∧ x.sinkReady = true ∧ s.blk.samples + 1 = s.blk.runN.toNat ∧
          t.blk.samples = t.blk.runN.toNat ∧ t.blk.done = true))

/-- A run as its pure functions give it: after START begins a run, `k` engine turns with a ready sink
emit `sampleLevel(0)` to `sampleLevel(k-1)`, each once and in order (R310, R346, R347). After them
`w.FC` frames are assembled, those up to the frame of the last sample; the clock register holds
`tc_{w.FC}`, the frame register `F_{w.FC-1}` and `w.P` the polarity `P_{80(w.FC-1)}` before its bit 0,
which is `P_0` before any frame. The run is over exactly when `k` is the duration. That the sink is
ready at every turn stands in for the fairness of R355, which is the model's choice (log entry 18). -/
def Obligations.RunEmitsSampleLevels : Prop :=
  ∀ (s t : State) (k : Nat) (rest : List Instant), s.blk.busy = false → exec .start s = .next t →
    t.blk.busy = true → k ≤ t.blk.runN.toNat →
    let x := t.blk.snapshot t.params
    ∃ u, Host.Core.run Sys2Proof.core k (withEngine t k rest) = .next u ∧
      u.output = t.output ++ (List.range k).map x.sampleLevel ∧
      u.sink.accepted.map Sample.level =
        t.sink.accepted.map Sample.level ++ (List.range k).map x.sampleLevel ∧
      u.pending = rest ∧ u.blk.samples = k ∧ u.blk.busy = decide (k < t.blk.runN.toNat) ∧
      u.blk.done = decide (k = t.blk.runN.toNat) ∧
      u.blk.frames = (if k = 0 then 0 else (k - 1) * gridD x.rate / gridK x.rate x.sr / 160 + 1) ∧
      u.blk.clk = x.tcAt u.blk.frames ∧
      u.blk.pol = x.polBefore (80 * (u.blk.frames - 1)) ∧
      (0 < k → u.blk.frame = x.frameAt (u.blk.frames - 1) ∧ u.blk.level = x.sampleLevel (k - 1))

/-- The end state of a run of `N >= 1` samples (R351, R352): `SAMPLE_COUNT` is `N`, the frames
assembled are `floor((N-1) x D / K) div 160 + 1`, the clock is the start timecode advanced that
often, the frame register holds the last frame and `LEVEL` the last sample's level, and `STATUS`
reads 2. -/
def Obligations.RunEndState : Prop :=
  ∀ (s t : State) (rest : List Instant), s.blk.busy = false → exec .start s = .next t →
    t.blk.busy = true →
    let x := t.blk.snapshot t.params
    let frames := (x.n - 1) * gridD x.rate / gridK x.rate x.sr / 160 + 1
    ∃ u, Host.Core.run Sys2Proof.core x.n (withEngine t x.n rest) = .next u ∧
      u.blk.samples = x.n ∧ u.blk.frames = frames ∧ u.blk.clk = x.tcAt frames ∧
      u.blk.clkValid = true ∧ u.blk.frame = x.frameAt (frames - 1) ∧
      u.blk.level = x.sampleLevel (x.n - 1) ∧ u.blk.readWord 0x04 = 0x00000002

/-- A run is a function of the snapshot START takes (R340): two accepted STARTs whose validation passes
and whose snapshots are equal deliver the same samples, whatever either state held before. And two
idle states that agree on the parameters and the registers START reads report the same outcome, take
equal snapshots where it passes, and deliver the same samples. -/
def Obligations.RunIsFunctionOfConfiguration : Prop :=
  ∀ (s s' t t' : State) (k : Nat), s.blk.busy = false → s'.blk.busy = false →
    exec .start s = .next t → exec .start s' = .next t' →
    (t.blk.errKind = 0 → t'.blk.errKind = 0 →
      t.blk.snapshot t.params = t'.blk.snapshot t'.params → sameSamples k t t') ∧
    (s.params = s'.params → s.blk.cfg = s'.blk.cfg → s.blk.tcStart = s'.blk.tcStart →
      s.blk.ub = s'.blk.ub → s.blk.field1 = s'.blk.field1 → s.blk.bgf = s'.blk.bgf →
      s.blk.sampleRate = s'.blk.sampleRate → s.blk.duration = s'.blk.duration →
      t.blk.errKind = t'.blk.errKind ∧ t.blk.errCode = t'.blk.errCode ∧
        (t.blk.errKind = 0 → t.blk.snapshot t.params = t'.blk.snapshot t'.params) ∧
        sameSamples k t t')

/-- The snapshot isolates a run (R90, R442): a register write at any offset but that of `CMD`, a
UB_MERGE or a NOP commutes with EMIT, so it changes nothing of what the run emits. -/
def Obligations.WritesCommuteWithEmit : Prop :=
  ∀ (i : Instr), (i = .nop ∨ (∃ m, i = .ubMerge m) ∨ ∃ off v, off ≠ 0x00 ∧ i = .regWrite off v) →
    ∀ s t1 t2 u1 u2 : State,
      exec i s = .next t1 → exec .emit t1 = .next t2 →
      exec .emit s = .next u1 → exec i u1 = .next u2 →
      t2 = u2 ∧ t1.output = s.output

/-- The output stream (R91, R348): a step that counts no sample delivers none, and leaves the record of
levels as it is unless it is a reset; and the one step that delivers a sample is an EMIT at the engine's
turn, of a run in progress and with a ready sink, which counts that sample and records its level. No
step changes the parameters, and an instant names the agent whose turn it is (log entries 1 and 2). -/
def Obligations.SamplesNeverDroppedOrRepeated : Prop :=
  ∀ s t : State, step s = .next t → t.params = s.params ∧
    ((t.sink.accepted = s.sink.accepted ∧ t.blk.samples ≤ s.blk.samples ∧
        (t.output = s.output ∨
          (t.output = [] ∧ ∃ ready req rest,
            s.pending = { reset := true, sinkReady := ready, request := req } :: rest))) ∨
      ((∃ rest, s.pending = instant true .engine :: rest) ∧ s.blk.busy = true ∧
        t.sink.ready = true ∧ t.blk.samples = s.blk.samples + 1 ∧
        ∃ x : Sample, t.sink.accepted = s.sink.accepted ++ [x] ∧ t.output = s.output ++ [x.level] ∧
          t.blk.level = x.level ∧
          x.pcm = BitVec.ofInt 16 (if x.level then Config.amp else -Config.amp)))

/-- A START and the EMIT that completes a run, in either order (R394): before it START is rejected as
busy, after it START is not. -/
def Obligations.StartAgainstLastEmit : Prop :=
  ∀ s t u : State, s.blk.busy = true → s.sink.ready = true →
    s.blk.samples + 1 = s.blk.runN.toNat → exec .emit s = .next t → exec .start t = .next u →
    exec .start s = .next { s with blk := rejected s.blk 1 } ∧
      u.blk.reject = false ∧ u.blk.rejCode = 0

/-! ### The invariant -/

/-- The invariant holds after reset, from any state, and at the machine's reset state. -/
def Obligations.ResetMeetsInvariant : Prop :=
  State.Inv State.reset ∧ ∀ s : State, s.takeReset.Inv

/-- Every step keeps the invariant, from every state that meets it: reserved bits 0, the clock valid,
the error and rejection fields legal, the run position consistent, the polarity at `REF_POLARITY`, the
sync word in the frame register, and the recorded levels those of the last samples accepted. -/
def Obligations.StepKeepsInvariant : Prop :=
  ∀ s t : State, s.Inv → step s = .next t → t.Inv

/-! ### Host syntax -/

/-- The pseudo-instructions of R141: each expands to the writes of its rule, and in every state those
writes complete and leave the values it names in the registers, changing nothing else of the block but
the rejection fields, which the command of SET_UB clears. -/
def Obligations.PseudoInstructionsSetRegisters : Prop :=
  (∀ (hh mm ss ff : Nat), hh < 32 → mm < 64 → ss < 64 → ff < 64 →
    ∃ v, (HostOp.setTc hh mm ss ff).accesses = [.bus 4 0x10C v] ∧ v &&& 0x1F3F3F3F = v ∧
      tcOfWord v = ⟨hh, mm, ss, ff⟩ ∧
      ∀ (s : State) (ready : Bool) (rest : List Instant),
        runLine (.setTc hh mm ss ff) s ready rest =
          .next { reached s ready rest with blk := { s.blk with tcStart := v } }) ∧
  (∀ (r : Rate) (df cf : Bool),
    ∃ v, (HostOp.setCfg r df cf).accesses = [.bus 4 0x108 v] ∧
      v.toNat = r.sel.toNat + 16 * df.toNat + 32 * cf.toNat ∧
      ∀ (s : State) (ready : Bool) (rest : List Instant),
        runLine (.setCfg r df cf) s ready rest =
          .next { reached s ready rest with blk := { s.blk with cfg := v } }) ∧
  (∀ x : BitVec 4,
    ∃ v, (HostOp.setField1 x).accesses = [.bus 4 0x11C v] ∧ v.toNat = 256 + x.toNat ∧
      ∀ (s : State) (ready : Bool) (rest : List Instant),
        runLine (.setField1 x) s ready rest =
          .next { reached s ready rest with blk := { s.blk with field1 := v } }) ∧
  (HostOp.clrField1.accesses = [.bus 4 0x11C 0] ∧
    ∀ (s : State) (ready : Bool) (rest : List Instant),
      runLine .clrField1 s ready rest =
        .next { reached s ready rest with blk := { s.blk with field1 := 0 } }) ∧
  ∀ u : Word, (HostOp.setUb u).accesses = [.bus 4 0x114 u, .bus 4 0x100 0x00000F05] ∧
    ∀ (s : State) (ready : Bool) (rest : List Instant),
      runLine (.setUb u) s ready rest =
        .next { reached s ready rest with
          blk := { s.blk with ubStage := u, ub := u, reject := false, rejCode := 0 } }
end

