-- ==== Sys2Proof/Laws/State.lean ====
section
/-!
SUPPORT. The small lemmas of the state's updates: what each field is after each of them. A conjunction
tagged `simp` gives one rewriting rule a field.
-/

namespace Sys2Proof.Machine

/-- What `setBlk` leaves of every field. -/
@[simp] theorem State.setBlk_fields (s : State) (b : Block) :
      (s.setBlk b).params = s.params ∧ (s.setBlk b).blk = b ∧ (s.setBlk b).output = s.output ∧
      (s.setBlk b).sink = s.sink ∧ (s.setBlk b).replies = s.replies ∧
      (s.setBlk b).pending = s.pending :=
  by refine ⟨?_, ?_⟩ <;> (repeat' apply And.intro) <;> rfl

/-- What `pushReply` leaves of every field. -/
@[simp] theorem State.pushReply_fields (s : State) (v : Word) :
      (s.pushReply v).params = s.params ∧ (s.pushReply v).blk = s.blk ∧
      (s.pushReply v).output = s.output ∧ (s.pushReply v).sink = s.sink ∧
      (s.pushReply v).replies = s.replies ++ [v] ∧ (s.pushReply v).pending = s.pending :=
  by refine ⟨?_, ?_⟩ <;> (repeat' apply And.intro) <;> rfl

/-- What `emitLevel` leaves of every field. -/
@[simp] theorem State.emitLevel_fields (s : State) (l : Bool) :
      (s.emitLevel l).params = s.params ∧ (s.emitLevel l).blk = s.blk ∧
      (s.emitLevel l).output = s.output ++ [l] ∧
      (s.emitLevel l).sink = { s.sink with accepted := s.sink.accepted ++ [{ level := l, pcm := pcmOfLevel l }] } ∧
      (s.emitLevel l).replies = s.replies ∧ (s.emitLevel l).pending = s.pending :=
  by refine ⟨?_, ?_⟩ <;> (repeat' apply And.intro) <;> rfl

/-- What `takeReset` leaves of every field. -/
@[simp] theorem State.takeReset_fields (s : State) :
      (s.takeReset).params = s.params ∧ (s.takeReset).blk = Block.atReset s.params ∧
      (s.takeReset).output = [] ∧ (s.takeReset).sink = s.sink ∧ (s.takeReset).replies = s.replies ∧
      (s.takeReset).pending = s.pending :=
  by refine ⟨?_, ?_⟩ <;> (repeat' apply And.intro) <;> rfl

/-- What `reach` leaves of every field. -/
@[simp] theorem State.reach_fields (s : State) (i : Instant) (rest : List Instant) :
      (s.reach i rest).params = s.params ∧ (s.reach i rest).blk = s.blk ∧
      (s.reach i rest).output = s.output ∧
      (s.reach i rest).sink = { s.sink with ready := i.sinkReady } ∧
      (s.reach i rest).replies = s.replies ∧ (s.reach i rest).pending = rest :=
  by refine ⟨?_, ?_⟩ <;> (repeat' apply And.intro) <;> rfl

/-- `raise` writes the error fields only (R383). -/
@[simp] theorem Block.raise_fields (b : Block) (e : ValError) :
      (b.raise e).cfg = b.cfg ∧ (b.raise e).tcStart = b.tcStart ∧ (b.raise e).ub = b.ub ∧
      (b.raise e).ubStage = b.ubStage ∧ (b.raise e).bgf = b.bgf ∧ (b.raise e).field1 = b.field1 ∧
      (b.raise e).sampleRate = b.sampleRate ∧ (b.raise e).duration = b.duration ∧
      (b.raise e).clk = b.clk ∧ (b.raise e).clkValid = b.clkValid ∧ (b.raise e).rate = b.rate ∧
      (b.raise e).df = b.df ∧ (b.raise e).runCf = b.runCf ∧ (b.raise e).runUbe = b.runUbe ∧
      (b.raise e).runBgf = b.runBgf ∧ (b.raise e).runSr = b.runSr ∧ (b.raise e).runN = b.runN ∧
      (b.raise e).frame = b.frame ∧ (b.raise e).pol = b.pol ∧ (b.raise e).level = b.level ∧
      (b.raise e).busy = b.busy ∧ (b.raise e).done = b.done ∧ (b.raise e).errKind = e.kind ∧
      (b.raise e).errCode = e.code ∧ (b.raise e).reject = b.reject ∧
      (b.raise e).rejCode = b.rejCode ∧ (b.raise e).samples = b.samples ∧
      (b.raise e).frames = b.frames :=
  by refine ⟨?_, ?_⟩ <;> (repeat' apply And.intro) <;> rfl

/-- `clearError` writes the error fields only (R383). -/
@[simp] theorem Block.clearError_fields (b : Block) :
      (b.clearError).cfg = b.cfg ∧ (b.clearError).tcStart = b.tcStart ∧ (b.clearError).ub = b.ub ∧
      (b.clearError).ubStage = b.ubStage ∧ (b.clearError).bgf = b.bgf ∧
      (b.clearError).field1 = b.field1 ∧ (b.clearError).sampleRate = b.sampleRate ∧
      (b.clearError).duration = b.duration ∧ (b.clearError).clk = b.clk ∧
      (b.clearError).clkValid = b.clkValid ∧ (b.clearError).rate = b.rate ∧
      (b.clearError).df = b.df ∧ (b.clearError).runCf = b.runCf ∧
      (b.clearError).runUbe = b.runUbe ∧ (b.clearError).runBgf = b.runBgf ∧
      (b.clearError).runSr = b.runSr ∧ (b.clearError).runN = b.runN ∧
      (b.clearError).frame = b.frame ∧ (b.clearError).pol = b.pol ∧
      (b.clearError).level = b.level ∧ (b.clearError).busy = b.busy ∧
      (b.clearError).done = b.done ∧ (b.clearError).errKind = 0 ∧ (b.clearError).errCode = 0 ∧
      (b.clearError).reject = b.reject ∧ (b.clearError).rejCode = b.rejCode ∧
      (b.clearError).samples = b.samples ∧ (b.clearError).frames = b.frames :=
  by refine ⟨?_, ?_⟩ <;> (repeat' apply And.intro) <;> rfl

/-- `rejectCmd` writes the rejection fields only (R391). -/
@[simp] theorem Block.rejectCmd_fields (b : Block) (c : BitVec 3) :
      (b.rejectCmd c).cfg = b.cfg ∧ (b.rejectCmd c).tcStart = b.tcStart ∧
      (b.rejectCmd c).ub = b.ub ∧ (b.rejectCmd c).ubStage = b.ubStage ∧
      (b.rejectCmd c).bgf = b.bgf ∧ (b.rejectCmd c).field1 = b.field1 ∧
      (b.rejectCmd c).sampleRate = b.sampleRate ∧ (b.rejectCmd c).duration = b.duration ∧
      (b.rejectCmd c).clk = b.clk ∧ (b.rejectCmd c).clkValid = b.clkValid ∧
      (b.rejectCmd c).rate = b.rate ∧ (b.rejectCmd c).df = b.df ∧ (b.rejectCmd c).runCf = b.runCf ∧
      (b.rejectCmd c).runUbe = b.runUbe ∧ (b.rejectCmd c).runBgf = b.runBgf ∧
      (b.rejectCmd c).runSr = b.runSr ∧ (b.rejectCmd c).runN = b.runN ∧
      (b.rejectCmd c).frame = b.frame ∧ (b.rejectCmd c).pol = b.pol ∧
      (b.rejectCmd c).level = b.level ∧ (b.rejectCmd c).busy = b.busy ∧
      (b.rejectCmd c).done = b.done ∧ (b.rejectCmd c).errKind = b.errKind ∧
      (b.rejectCmd c).errCode = b.errCode ∧ (b.rejectCmd c).reject = true ∧
      (b.rejectCmd c).rejCode = c ∧ (b.rejectCmd c).samples = b.samples ∧
      (b.rejectCmd c).frames = b.frames :=
  by refine ⟨?_, ?_⟩ <;> (repeat' apply And.intro) <;> rfl

/-- `clearReject` writes the rejection fields only (R177). -/
@[simp] theorem Block.clearReject_fields (b : Block) :
      (b.clearReject).cfg = b.cfg ∧ (b.clearReject).tcStart = b.tcStart ∧
      (b.clearReject).ub = b.ub ∧ (b.clearReject).ubStage = b.ubStage ∧
      (b.clearReject).bgf = b.bgf ∧ (b.clearReject).field1 = b.field1 ∧
      (b.clearReject).sampleRate = b.sampleRate ∧ (b.clearReject).duration = b.duration ∧
      (b.clearReject).clk = b.clk ∧ (b.clearReject).clkValid = b.clkValid ∧
      (b.clearReject).rate = b.rate ∧ (b.clearReject).df = b.df ∧ (b.clearReject).runCf = b.runCf ∧
      (b.clearReject).runUbe = b.runUbe ∧ (b.clearReject).runBgf = b.runBgf ∧
      (b.clearReject).runSr = b.runSr ∧ (b.clearReject).runN = b.runN ∧
      (b.clearReject).frame = b.frame ∧ (b.clearReject).pol = b.pol ∧
      (b.clearReject).level = b.level ∧ (b.clearReject).busy = b.busy ∧
      (b.clearReject).done = b.done ∧ (b.clearReject).errKind = b.errKind ∧
      (b.clearReject).errCode = b.errCode ∧ (b.clearReject).reject = false ∧
      (b.clearReject).rejCode = 0 ∧ (b.clearReject).samples = b.samples ∧
      (b.clearReject).frames = b.frames :=
  by refine ⟨?_, ?_⟩ <;> (repeat' apply And.intro) <;> rfl

/-- `clearDone` writes `DONE` only (R341). -/
@[simp] theorem Block.clearDone_fields (b : Block) :
      (b.clearDone).cfg = b.cfg ∧ (b.clearDone).tcStart = b.tcStart ∧ (b.clearDone).ub = b.ub ∧
      (b.clearDone).ubStage = b.ubStage ∧ (b.clearDone).bgf = b.bgf ∧
      (b.clearDone).field1 = b.field1 ∧ (b.clearDone).sampleRate = b.sampleRate ∧
      (b.clearDone).duration = b.duration ∧ (b.clearDone).clk = b.clk ∧
      (b.clearDone).clkValid = b.clkValid ∧ (b.clearDone).rate = b.rate ∧ (b.clearDone).df = b.df ∧
      (b.clearDone).runCf = b.runCf ∧ (b.clearDone).runUbe = b.runUbe ∧
      (b.clearDone).runBgf = b.runBgf ∧ (b.clearDone).runSr = b.runSr ∧
      (b.clearDone).runN = b.runN ∧ (b.clearDone).frame = b.frame ∧ (b.clearDone).pol = b.pol ∧
      (b.clearDone).level = b.level ∧ (b.clearDone).busy = b.busy ∧ (b.clearDone).done = false ∧
      (b.clearDone).errKind = b.errKind ∧ (b.clearDone).errCode = b.errCode ∧
      (b.clearDone).reject = b.reject ∧ (b.clearDone).rejCode = b.rejCode ∧
      (b.clearDone).samples = b.samples ∧ (b.clearDone).frames = b.frames :=
  by refine ⟨?_, ?_⟩ <;> (repeat' apply And.intro) <;> rfl

/-- `loadClock` writes the clock and the error fields only (R205). -/
@[simp] theorem Block.loadClock_fields (b : Block) (c : ClockConfig) :
      (b.loadClock c).cfg = b.cfg ∧ (b.loadClock c).tcStart = b.tcStart ∧
      (b.loadClock c).ub = b.ub ∧ (b.loadClock c).ubStage = b.ubStage ∧
      (b.loadClock c).bgf = b.bgf ∧ (b.loadClock c).field1 = b.field1 ∧
      (b.loadClock c).sampleRate = b.sampleRate ∧ (b.loadClock c).duration = b.duration ∧
      (b.loadClock c).clk = c.tc ∧ (b.loadClock c).clkValid = true ∧
      (b.loadClock c).rate = c.rate ∧ (b.loadClock c).df = c.df ∧ (b.loadClock c).runCf = b.runCf ∧
      (b.loadClock c).runUbe = b.runUbe ∧ (b.loadClock c).runBgf = b.runBgf ∧
      (b.loadClock c).runSr = b.runSr ∧ (b.loadClock c).runN = b.runN ∧
      (b.loadClock c).frame = b.frame ∧ (b.loadClock c).pol = b.pol ∧
      (b.loadClock c).level = b.level ∧ (b.loadClock c).busy = b.busy ∧
      (b.loadClock c).done = b.done ∧ (b.loadClock c).errKind = 0 ∧ (b.loadClock c).errCode = 0 ∧
      (b.loadClock c).reject = b.reject ∧ (b.loadClock c).rejCode = b.rejCode ∧
      (b.loadClock c).samples = b.samples ∧ (b.loadClock c).frames = b.frames :=
  by refine ⟨?_, ?_⟩ <;> (repeat' apply And.intro) <;> rfl

/-- A turn of EMIT's loop writes the frame, the polarity, the clock and the frame count only (R345). -/
@[simp] theorem Block.nextFrame_fields (p : Params) (b : Block) :
      (b.nextFrame p).cfg = b.cfg ∧ (b.nextFrame p).tcStart = b.tcStart ∧
      (b.nextFrame p).ub = b.ub ∧ (b.nextFrame p).ubStage = b.ubStage ∧
      (b.nextFrame p).bgf = b.bgf ∧ (b.nextFrame p).field1 = b.field1 ∧
      (b.nextFrame p).sampleRate = b.sampleRate ∧ (b.nextFrame p).duration = b.duration ∧
      (b.nextFrame p).clk = b.clk.advance p b.rate b.df ∧ (b.nextFrame p).clkValid = b.clkValid ∧
      (b.nextFrame p).rate = b.rate ∧ (b.nextFrame p).df = b.df ∧ (b.nextFrame p).runCf = b.runCf ∧
      (b.nextFrame p).runUbe = b.runUbe ∧ (b.nextFrame p).runBgf = b.runBgf ∧
      (b.nextFrame p).runSr = b.runSr ∧ (b.nextFrame p).runN = b.runN ∧
      (b.nextFrame p).frame = assembleFrame b.clk b.rate b.df b.runCf b.runUbe b.runBgf ∧
      (b.nextFrame p).pol = b.handoff ∧ (b.nextFrame p).level = b.level ∧
      (b.nextFrame p).busy = b.busy ∧ (b.nextFrame p).done = b.done ∧
      (b.nextFrame p).errKind = b.errKind ∧ (b.nextFrame p).errCode = b.errCode ∧
      (b.nextFrame p).reject = b.reject ∧ (b.nextFrame p).rejCode = b.rejCode ∧
      (b.nextFrame p).samples = b.samples ∧ (b.nextFrame p).frames = b.frames + 1 :=
  by refine ⟨?_, ?_⟩ <;> (repeat' apply And.intro) <;> rfl

/-- Counting a sample writes the level, the sample count, `BUSY` and `DONE` only (R345). -/
@[simp] theorem Block.countSample_fields (b : Block) (l : Bool) :
      (b.countSample l).cfg = b.cfg ∧ (b.countSample l).tcStart = b.tcStart ∧
      (b.countSample l).ub = b.ub ∧ (b.countSample l).ubStage = b.ubStage ∧
      (b.countSample l).bgf = b.bgf ∧ (b.countSample l).field1 = b.field1 ∧
      (b.countSample l).sampleRate = b.sampleRate ∧ (b.countSample l).duration = b.duration ∧
      (b.countSample l).clk = b.clk ∧ (b.countSample l).clkValid = b.clkValid ∧
      (b.countSample l).rate = b.rate ∧ (b.countSample l).df = b.df ∧
      (b.countSample l).runCf = b.runCf ∧ (b.countSample l).runUbe = b.runUbe ∧
      (b.countSample l).runBgf = b.runBgf ∧ (b.countSample l).runSr = b.runSr ∧
      (b.countSample l).runN = b.runN ∧ (b.countSample l).frame = b.frame ∧
      (b.countSample l).pol = b.pol ∧ (b.countSample l).level = l ∧
      (b.countSample l).busy = (if b.samples + 1 = b.runN.toNat then false else b.busy) ∧
      (b.countSample l).done = (if b.samples + 1 = b.runN.toNat then true else b.done) ∧
      (b.countSample l).errKind = b.errKind ∧ (b.countSample l).errCode = b.errCode ∧
      (b.countSample l).reject = b.reject ∧ (b.countSample l).rejCode = b.rejCode ∧
      (b.countSample l).samples = b.samples + 1 ∧ (b.countSample l).frames = b.frames :=
  by refine ⟨?_, ?_⟩ <;> (repeat' apply And.intro) <;> rfl

end Sys2Proof.Machine
end

