-- ==== Sys2Proof/Laws/Ops.lean ====
section
/-!
SUPPORT. One lemma for each shared operation of Machine/Ops.lean, Operands.lean and Flags.lean: what
it can do, for callers to cite.
-/

namespace Sys2Proof.Machine

/-- A bit field as a number. -/
theorem extract_toNat {w : Nat} (v : BitVec w) (lo n : Nat) :
    (v.extractLsb' lo n).toNat = v.toNat / 2 ^ lo % 2 ^ n := by
  rw [BitVec.extractLsb'_toNat, Nat.shiftRight_eq_div_pow]

/-- A concatenation as a number (R7). -/
theorem append_toNat {m n : Nat} (x : BitVec m) (y : BitVec n) :
    (x ++ y).toNat = x.toNat * 2 ^ n + y.toNat := by
  rw [BitVec.toNat_append, ← Nat.shiftLeft_add_eq_or_of_lt y.isLt, Nat.shiftLeft_eq]

theorem aligned_iff (off : Offset) : Offset.aligned off = true ↔ off.toNat % 4 = 0 := by
  simp [Offset.aligned]

theorem aligned_false_iff (off : Offset) : Offset.aligned off = false ↔ off.toNat % 4 ≠ 0 := by
  simp [Offset.aligned]

/-- The register map has one register an offset (R93). -/
theorem Reg.ofOffset_offset (r : Reg) : Reg.ofOffset r.offset = some r := by
  cases r <;> decide

theorem Reg.ofOffset_eq_some {off : Offset} {r : Reg} :
    Reg.ofOffset off = some r ↔ off = r.offset := by
  constructor
  · intro h
    have h' := List.find?_some h
    exact (eq_of_beq h').symm
  · rintro rfl
    exact Reg.ofOffset_offset r

theorem Reg.aligned_offset (r : Reg) : Offset.aligned r.offset = true := by
  cases r <;> decide

theorem Reg.offset_injective {r r' : Reg} (h : r.offset = r'.offset) : r = r' := by
  have h1 := Reg.ofOffset_offset r
  rw [h, Reg.ofOffset_offset r'] at h1
  exact (Option.some.inj h1).symm

/-- Past the last register every offset is reserved (R48, R93). -/
theorem Reg.ofOffset_reserved {off : Offset} (h : 0x48 ≤ off.toNat) : Reg.ofOffset off = none := by
  cases hr : Reg.ofOffset off with
  | none => rfl
  | some r =>
    rw [Reg.ofOffset_eq_some] at hr
    subst hr
    cases r <;> exact absurd h (by decide)

/-- A register is read at its offset. -/
@[simp] theorem Block.readWord_offset (b : Block) (r : Reg) : b.readWord r.offset = b.readReg r := by
  rw [Block.readWord, Reg.ofOffset_offset]

/-- A register is written at its offset. -/
@[simp] theorem Block.writeWord_offset (b : Block) (r : Reg) (v : Word) :
    b.writeWord r.offset v = b.writeReg v r := by
  rw [Block.writeWord, Reg.ofOffset_offset]

theorem Block.readWord_reserved (b : Block) {off : Offset} (h : 0x48 ≤ off.toNat) :
    b.readWord off = 0 := by
  rw [Block.readWord, Reg.ofOffset_reserved h]

theorem Block.writeWord_reserved (b : Block) {off : Offset} (v : Word) (h : 0x48 ≤ off.toNat) :
    b.writeWord off v = b := by
  rw [Block.writeWord, Reg.ofOffset_reserved h]

/-- What a write can do: nothing, or the masked word in the one register addressed (R84, R172). -/
theorem Block.writeWord_cases (b : Block) (off : Offset) (v : Word) :
    (b.writeWord off v = b) ∨ ∃ r m, off = r.offset ∧ r.wmask = some m ∧
      b.writeWord off v = b.writeReg v r ∧ (b.writeReg v r).readReg r = v &&& m := by
  cases hr : Reg.ofOffset off with
  | none => left; rw [Block.writeWord, hr]
  | some r =>
    rw [Reg.ofOffset_eq_some] at hr
    subst hr
    rw [Block.writeWord_offset]
    cases r with
    | cfg | tcStart | ubStage | bgf | field1 | sampleRate | duration =>
      refine .inr ⟨_, _, rfl, rfl, rfl, ?_⟩
      simp [Block.writeReg, Block.readReg, BitVec.and_assoc]
    | _ => exact .inl rfl

/-- A write leaves every field but those of the read/write registers (R85). -/
theorem Block.writeWord_frame (b : Block) (off : Offset) (v : Word) :
    b.writeWord off v = { b with
      cfg := (b.writeWord off v).cfg, tcStart := (b.writeWord off v).tcStart
      ubStage := (b.writeWord off v).ubStage, bgf := (b.writeWord off v).bgf
      field1 := (b.writeWord off v).field1, sampleRate := (b.writeWord off v).sampleRate
      duration := (b.writeWord off v).duration } := by
  unfold Block.writeWord
  split
  · rename_i r _
    cases r <;> rfl
  · rfl

/-- What issuing a command can do: the rejection with a code that is not 0, or the body after the
bookkeeping (R175, R391). -/
theorem Block.issue_cases (b : Block) (op arg : BitVec 8) (hi : BitVec 16) (body : Block → Block) :
    (acceptCode op arg hi b ≠ 0 ∧ b.issue op arg hi body = b.rejectCmd (acceptCode op arg hi b)) ∨
      (acceptCode op arg hi b = 0 ∧ b.issue op arg hi body = body b.clearReject) := by
  unfold Block.issue
  split
  · exact .inl ⟨‹_›, rfl⟩
  · exact .inr ⟨not_not.mp ‹_›, rfl⟩

theorem Block.issue_accept {b : Block} {op arg : BitVec 8} {hi : BitVec 16}
    (h : acceptCode op arg hi b = 0) (body : Block → Block) :
    b.issue op arg hi body = body b.clearReject := by
  simp [Block.issue, h]

theorem Block.issue_reject {b : Block} {op arg : BitVec 8} {hi : BitVec 16} {c : BitVec 3}
    (h : acceptCode op arg hi b = c) (hc : c ≠ 0) (body : Block → Block) :
    b.issue op arg hi body = b.rejectCmd c := by
  rw [Block.issue, h, if_pos hc]

/-- NOP is always accepted (R176). -/
theorem acceptCode_nop (b : Block) : acceptCode 0x00 0x00 0x0000 b = 0 := by
  simp [acceptCode]

/-- START and TC_LOAD are rejected exactly while a run is in progress (R176). -/
theorem acceptCode_start (b : Block) :
    acceptCode 0x01 0x00 0x0000 b = if b.busy then 1 else 0 := by
  cases h : b.busy <;> simp [acceptCode, h]

theorem acceptCode_tcLoad (b : Block) :
    acceptCode 0x02 0x00 0x0000 b = if b.busy then 1 else 0 := by
  cases h : b.busy <;> simp [acceptCode, h]

/-- TC_ADVANCE and ASSEMBLE need a loaded clock as well (R176). -/
theorem acceptCode_tcAdvance (b : Block) :
    acceptCode 0x03 0x00 0x0000 b = if b.busy then 1 else if b.clkValid then 0 else 4 := by
  cases h : b.busy <;> cases h' : b.clkValid <;> simp [acceptCode, h, h']

theorem acceptCode_assemble (b : Block) :
    acceptCode 0x04 0x00 0x0000 b = if b.busy then 1 else if b.clkValid then 0 else 4 := by
  cases h : b.busy <;> cases h' : b.clkValid <;> simp [acceptCode, h, h']

theorem argHigh_mask (m : BitVec 4) : argHigh (0#4 ++ m) = 0 := by
  revert m; decide

theorem argMask_mask (m : BitVec 4) : argMask (0#4 ++ m) = m := by
  revert m; decide

/-- UB_MERGE is always accepted (R176). -/
theorem acceptCode_ubMerge (m : BitVec 4) (b : Block) :
    acceptCode 0x05 (0#4 ++ m) 0x0000 b = 0 := by
  simp [acceptCode, argHigh_mask]

/-- The acceptance looks at nothing of the block but `BUSY` and `CLK_VALID`, and its code is at most
4 (R176, R390). -/
theorem acceptCode_le (op arg : BitVec 8) (hi : BitVec 16) (b : Block) :
    (acceptCode op arg hi b).toNat ≤ 4 := by
  unfold acceptCode
  repeat' split
  all_goals decide

theorem acceptCode_congr (op arg : BitVec 8) (hi : BitVec 16) {b b' : Block}
    (h : b.busy = b'.busy) (h' : b.clkValid = b'.clkValid) :
    acceptCode op arg hi b = acceptCode op arg hi b' := by
  simp [acceptCode, h, h']

end Sys2Proof.Machine
end

