-- ==== Sys2Proof/Laws/Clock.lean ====
section
/-!
SUPPORT. The clock: the rate table, validity, the advance function and validation, one lemma each
that says all they can do.
-/

namespace Sys2Proof

theorem Rate.ofSel_eq_some {sel : BitVec 3} {r : Rate} (h : Rate.ofSel sel = some r) : sel = r.sel := by
  unfold Rate.ofSel at h
  repeat' split at h
  all_goals
    first
      | contradiction
      | (injection h with h; subst h; assumption)

theorem Rate.ofSel_sel (r : Rate) : Rate.ofSel r.sel = some r := by
  cases r <;> rfl

/-- Selectors 6 and 7 are invalid, and no others (R118). -/
theorem Rate.ofSel_eq_none {sel : BitVec 3} : Rate.ofSel sel = none ↔ 5 < sel.toNat := by
  revert sel; decide

theorem Rate.sel_injective {r r' : Rate} (h : r.sel = r'.sel) : r = r' := by
  have h1 := Rate.ofSel_sel r
  rw [h, Rate.ofSel_sel r'] at h1
  exact (Option.some.inj h1).symm

theorem Rate.nominal_pos (r : Rate) : 0 < r.nominal := by cases r <;> decide

theorem Rate.nominal_le (r : Rate) : r.nominal ≤ 60 := by cases r <;> decide

/-- The two drop-frame rates and their drop counts (R120, R121). -/
theorem Rate.dfAllowed_cases {p : Params} {r : Rate} (h : r.dfAllowed = true) :
    (r = .fps2997 ∧ r.nominal = 30 ∧ r.drop p = 2) ∨
      (r = .fps5994 ∧ r.nominal = 60 ∧
        (p.df5994Drop = .two ∧ r.drop p = 2 ∨ p.df5994Drop = .four ∧ r.drop p = 4)) := by
  cases r <;> first | exact absurd h (by decide) | skip
  · exact .inl ⟨rfl, rfl, rfl⟩
  · refine .inr ⟨rfl, rfl, ?_⟩
    simp only [Rate.drop]
    cases p.df5994Drop
    · exact .inl ⟨rfl, rfl⟩
    · exact .inr ⟨rfl, rfl⟩

namespace Machine

/-- Validity, clause by clause (R215). -/
theorem Timecode.valid_iff (p : Params) (r : Rate) (df : Bool) (t : Timecode) :
    t.valid p r df = true ↔ t.h < 24 ∧ t.m < 60 ∧ t.s < 60 ∧ t.f < r.nominal ∧
      ¬ (df = true ∧ t.s = 0 ∧ t.m % 10 ≠ 0 ∧ t.f < r.drop p) := by
  simp [Timecode.valid, Timecode.dropped, and_assoc]
  cases df <;> simp
  omega

/-- The five things an advance can do (R210). -/
theorem Timecode.advance_cases (p : Params) (r : Rate) (df : Bool) (t : Timecode) (hh : t.h < 24)
    (hm : t.m < 60) (hs : t.s < 60) (hf : t.f < r.nominal) :
    (t.f + 1 < r.nominal ∧ t.advance p r df = ⟨t.h, t.m, t.s, t.f + 1⟩) ∨
      (t.f + 1 = r.nominal ∧ t.s < 59 ∧ t.advance p r df = ⟨t.h, t.m, t.s + 1, 0⟩) ∨
      (t.f + 1 = r.nominal ∧ t.s = 59 ∧ t.m < 59 ∧
        t.advance p r df =
          ⟨t.h, t.m + 1, 0, if df = true ∧ (t.m + 1) % 10 ≠ 0 then r.drop p else 0⟩) ∨
      (t.f + 1 = r.nominal ∧ t.s = 59 ∧ t.m = 59 ∧ t.h < 23 ∧
        t.advance p r df = ⟨t.h + 1, 0, 0, 0⟩) ∨
      (t.f + 1 = r.nominal ∧ t.s = 59 ∧ t.m = 59 ∧ t.h = 23 ∧ t.advance p r df = ⟨0, 0, 0, 0⟩) := by
  obtain ⟨h, m, s, f⟩ := t
  simp only at *
  unfold Timecode.advance
  simp only
  by_cases c1 : f + 1 < r.nominal
  · exact .inl ⟨c1, if_pos c1⟩
  right
  rw [if_neg c1]
  by_cases c2 : s + 1 < 60
  · exact .inl ⟨by omega, by omega, if_pos c2⟩
  right
  rw [if_neg c2]
  by_cases c3 : m + 1 = 60
  · right
    simp only [c3, if_true]
    by_cases c4 : h + 1 = 24
    · right; simp [c4]; omega
    · left; simp [c4]; omega
  · left
    have c5 : ¬ h = 24 := by omega
    simp only [c3, c5, if_false]
    refine ⟨by omega, by omega, by omega, ?_⟩
    split <;> rfl

/-- What validation can answer: an error, or a valid configuration with a rate that allows its drop
mode and, where it is needed, a sample rate (R201). -/
theorem validate_cases (p : Params) (needSR : Bool) (b : Block) :
    (∃ e, validate p needSR b = .error e) ∨
      ∃ c, validate p needSR b = .ok c ∧ c.rate.sel = cfgRateSel b.cfg ∧ c.df = cfgDfReq b.cfg ∧
        c.tc = tcOfWord b.tcStart ∧ c.tc.valid p c.rate c.df = true ∧
        (c.df = true → c.rate.dfAllowed = true) ∧ (needSR = true → b.sampleRate ≠ 0) := by
  unfold validate
  split
  · exact .inl ⟨_, rfl⟩
  · rename_i r hr
    have hsel := Rate.ofSel_eq_some hr
    unfold checkClock
    simp only
    repeat' (split; · exact .inl ⟨_, rfl⟩)
    rename_i a1 a2 a3 a4 a5 a6 a7
    refine .inr ⟨_, rfl, hsel.symm, rfl, rfl, ?_, fun h => ?_, fun h h' => a2 ⟨h, h'⟩⟩
    · rw [Timecode.valid_iff]
      simp only
      refine ⟨by omega, by omega, by omega, by omega, ?_⟩
      rintro ⟨h1, h2, h3, h4⟩
      exact a7 ⟨h1, by simp [Timecode.dropped, h2, h3, h4]⟩
    · by_contra hc
      exact a1 ⟨h, by simpa using hc⟩

end Machine

end Sys2Proof
end

