-- ==== Sys2Proof/Laws/Decode.lean ====
section
/-!
SUPPORT. The words the encoder makes and the fields the decoder takes from them, as numbers.
-/

namespace Sys2Proof

open Sys2Proof.Machine

theorem commandWord_toNat (op arg : BitVec 8) :
    (commandWord op arg).toNat = 256 * arg.toNat + op.toNat := by
  refine (append_toNat _ _).trans ?_
  simp only [append_toNat, BitVec.toNat_ofNat]
  omega

theorem busDesc_toNat (we : Bool) (off : Offset) :
    (busDesc we off).toNat = 256 * we.toNat + off.toNat := by
  refine (append_toNat _ _).trans ?_
  simp only [BitVec.toNat_ofBool]
  omega

theorem cmdOp_toNat (v : Word) : (cmdOp v).toNat = v.toNat % 256 := by
  rw [cmdOp, extract_toNat, pow_zero, Nat.div_one]
  norm_num

theorem cmdArg_toNat (v : Word) : (cmdArg v).toNat = v.toNat / 256 % 256 := by
  rw [cmdArg, extract_toNat]
  norm_num

theorem cmdHi_toNat (v : Word) : (cmdHi v).toNat = v.toNat / 65536 := by
  have := v.isLt
  simp only [cmdHi, extract_toNat]
  omega

theorem argHigh_toNat (arg : BitVec 8) : (argHigh arg).toNat = arg.toNat / 16 := by
  have := arg.isLt
  simp only [argHigh, extract_toNat]
  omega

theorem argMask_toNat (arg : BitVec 8) : (argMask arg).toNat = arg.toNat % 16 := by
  rw [argMask, extract_toNat, pow_zero, Nat.div_one]
  norm_num

theorem maskArg_toNat (m : BitVec 4) : (0#4 ++ m : BitVec 8).toNat = m.toNat := by
  refine (append_toNat _ _).trans ?_
  simp

theorem cmdOp_commandWord (op arg : BitVec 8) : cmdOp (commandWord op arg) = op := by
  apply BitVec.eq_of_toNat_eq
  have := op.isLt
  rw [cmdOp_toNat, commandWord_toNat]
  omega

theorem cmdArg_commandWord (op arg : BitVec 8) : cmdArg (commandWord op arg) = arg := by
  apply BitVec.eq_of_toNat_eq
  have := op.isLt
  have := arg.isLt
  rw [cmdArg_toNat, commandWord_toNat]
  omega

theorem cmdHi_commandWord (op arg : BitVec 8) : cmdHi (commandWord op arg) = 0 := by
  apply BitVec.eq_of_toNat_eq
  have := op.isLt
  have := arg.isLt
  rw [cmdHi_toNat, commandWord_toNat]
  simp
  omega

/-- A word whose high half is 0 is the command word of its opcode and argument. -/
theorem commandWord_of_fields {v : Word} (h : cmdHi v = 0) :
    v = commandWord (cmdOp v) (cmdArg v) := by
  apply BitVec.eq_of_toNat_eq
  have h' := congrArg BitVec.toNat h
  rw [cmdHi_toNat] at h'
  rw [commandWord_toNat, cmdOp_toNat, cmdArg_toNat]
  simp at h'
  omega

theorem descOffset_toNat (d : BitVec 9) : (descOffset d).toNat = d.toNat % 256 := by
  rw [descOffset, extract_toNat, pow_zero, Nat.div_one]
  norm_num

theorem descWe_toNat (d : BitVec 9) : (descWe d).toNat = d.toNat / 256 := by
  revert d; decide

theorem descOffset_busDesc (we : Bool) (off : Offset) : descOffset (busDesc we off) = off := by
  apply BitVec.eq_of_toNat_eq
  have := off.isLt
  rw [descOffset_toNat, busDesc_toNat]
  omega

theorem descWe_busDesc (we : Bool) (off : Offset) : descWe (busDesc we off) = we := by
  have h := descWe_toNat (busDesc we off)
  have := off.isLt
  rw [busDesc_toNat] at h
  cases we <;> cases hd : descWe (busDesc _ off) <;> simp_all; omega

/-- A descriptor is made of its two fields. -/
theorem busDesc_of_fields (d : BitVec 9) : d = busDesc (descWe d) (descOffset d) := by
  apply BitVec.eq_of_toNat_eq
  rw [busDesc_toNat, descWe_toNat, descOffset_toNat]
  omega

/-- An argument whose high half is 0 is its mask. -/
theorem arg_of_mask {arg : BitVec 8} (h : argHigh arg = 0) : (0#4 ++ argMask arg : BitVec 8) = arg := by
  apply BitVec.eq_of_toNat_eq
  have h' := congrArg BitVec.toNat h
  rw [argHigh_toNat] at h'
  rw [maskArg_toNat, argMask_toNat]
  simp at h'
  omega

/-- An opcode without an argument decodes to the instruction it encodes (R111). -/
theorem plainCommand_ok {op : BitVec 8} {i : Instr} (h : plainCommand op = .ok i) :
    i.wellFormed = true ∧ encode i = some (.cmd (commandWord op 0x00)) := by
  unfold plainCommand at h
  repeat' split at h
  all_goals
    first
      | contradiction
      | (injection h with h; subst h; simp only [*]; exact ⟨rfl, rfl⟩)

/-- What a command word can decode to: a well-formed instruction whose encoding it is (R111, R112). -/
theorem decodeCommand_ok {v : Word} {i : Instr} (h : decodeCommand v = .ok i) :
    i.wellFormed = true ∧ encode i = some (.cmd v) := by
  unfold decodeCommand at h
  split at h
  · contradiction
  split at h
  · contradiction
  rename_i hhi
  have hv := commandWord_of_fields (not_not.mp hhi)
  split at h
  · rename_i hop
    split at h
    · contradiction
    · rename_i harg
      injection h with h
      subst h
      refine ⟨rfl, ?_⟩
      rw [encode, arg_of_mask (not_not.mp harg), ← hop, ← hv]
  · split at h
    · contradiction
    · rename_i harg
      have := plainCommand_ok h
      rw [← not_not.mp harg, ← hv] at this
      exact this

/-- What a bus access can decode to: a well-formed read or write at the offset of its descriptor
(R81, R115). -/
theorem decodeBus_ok {bytes : Nat} {desc : BitVec 9} {data : Word} {i : Instr}
    (h : decodeBus bytes desc data = .ok i) :
    bytes = 4 ∧ i.wellFormed = true ∧
      ((desc = busDesc true (descOffset desc) ∧ i = .regWrite (descOffset desc) data) ∨
        (desc = busDesc false (descOffset desc) ∧ i = .regRead (descOffset desc))) := by
  have hd := busDesc_of_fields desc
  unfold decodeBus at h
  split at h
  · contradiction
  rename_i hb
  split at h
  · contradiction
  rename_i ha
  simp only [Bool.not_eq_false] at ha
  refine ⟨not_not.mp hb, ?_⟩
  split at h <;> rename_i hw <;> injection h with h <;> subst h <;> refine ⟨ha, ?_⟩
  · exact .inl ⟨by rwa [hw] at hd, rfl⟩
  · simp only [Bool.not_eq_true] at hw
    exact .inr ⟨by rwa [hw] at hd, rfl⟩

/-- A whole-word access at an aligned offset decodes. -/
theorem decodeBus_busDesc (we : Bool) {off : Offset} (h : Offset.aligned off = true) (data : Word) :
    decodeBus 4 (busDesc we off) data = .ok (if we then .regWrite off data else .regRead off) := by
  cases we <;> simp [decodeBus, descOffset_busDesc, descWe_busDesc, h]

/-- The command word of a defined opcode with argument 0 decodes by the opcode map (R111). -/
theorem decodeCommand_plain {op : BitVec 8} (h : op.toNat < 5) :
    decodeCommand (commandWord op 0x00) = plainCommand op := by
  have h5 : op ≠ 0x05 := by
    rintro rfl
    exact absurd h (by decide)
  simp only [decodeCommand, cmdOp_commandWord, cmdHi_commandWord, cmdArg_commandWord]
  rw [if_neg (by omega), if_neg (by simp), if_neg h5, if_neg (by simp)]

/-- The command word of UB_MERGE decodes to it, for every mask (R112). -/
theorem decodeCommand_ubMerge (m : BitVec 4) :
    decodeCommand (commandWord 0x05 (0#4 ++ m)) = .ok (.ubMerge m) := by
  simp only [decodeCommand, cmdOp_commandWord, cmdHi_commandWord, cmdArg_commandWord, argHigh_mask,
    argMask_mask]
  rfl

end Sys2Proof
end

