-- ==== Sys2Proof/Laws/Frame.lean ====
section
/-!
SUPPORT. The frame assembler: a frame bit by bit (R126), and the parity of its bits.
-/

namespace Sys2Proof.Machine

/-- A bit of a frame after `put` (R261). -/
theorem getLsbD_put (F : FrameBits) (p w d i : Nat) (hi : i < 80) :
    (put F p w d).getLsbD i = if p ≤ i ∧ i < p + w then d.testBit (i - p) else F.getLsbD i := by
  unfold put
  simp only [BitVec.getLsbD_or, BitVec.getLsbD_and, BitVec.getLsbD_not, BitVec.getLsbD_shiftLeft,
    BitVec.getLsbD_ofNat, Nat.testBit_two_pow_sub_one, Nat.testBit_mod_two_pow, hi, decide_true,
    Bool.true_and]
  by_cases h : p ≤ i ∧ i < p + w
  · rw [if_pos h]
    have h1 : ¬ i < p := by omega
    have h2 : i - p < w := by omega
    have h3 : i - p < 80 := by omega
    simp [h1, h2, h3]
  · rw [if_neg h]
    by_cases h1 : i < p
    · simp [h1]
    · have : ¬ i - p < w := by omega
      simp [h1, this]

theorem getLsbD_putBit (F : FrameBits) (p i : Nat) (x : Bool) (hi : i < 80) :
    (putBit F p x).getLsbD i = if i = p then x else F.getLsbD i := by
  rw [putBit, getLsbD_put _ _ _ _ _ hi]
  by_cases h : i = p
  · subst h; cases x <;> simp
  · rw [if_neg h, if_neg (by omega)]

theorem xorExcept_congr {F G : FrameBits} {pc n : Nat}
    (h : ∀ i, i < n → i ≠ pc → F.getLsbD i = G.getLsbD i) : xorExcept F pc n = xorExcept G pc n := by
  induction n with
  | zero => rfl
  | succ n ih =>
    rw [xorExcept, xorExcept, ih fun i hi => h i (by omega)]
    split
    · rfl
    · rename_i hn; rw [h n (by omega) hn]

theorem zerosBelow_succ_parity (F : FrameBits) (n : Nat) :
    decide (zerosBelow F (n + 1) % 2 = 1) = (decide (zerosBelow F n % 2 = 1) ^^ !F.getLsbD n) := by
  rw [zerosBelow]
  cases F.getLsbD n <;> rcases Nat.mod_two_eq_zero_or_one (zerosBelow F n) with h | h <;>
    simp [h, Nat.add_mod]

/-- The parity of the count of 0 bits from the XOR of the bits. -/
theorem zerosBelow_parity (F : FrameBits) (pc n : Nat) :
    decide (zerosBelow F n % 2 = 1) =
      (xorExcept F pc n ^^ (decide (pc < n) && F.getLsbD pc) ^^ decide (n % 2 = 1)) := by
  induction n with
  | zero => simp [zerosBelow, xorExcept]
  | succ n ih =>
    have e2 : decide ((n + 1) % 2 = 1) = !decide (n % 2 = 1) := by
      rcases Nat.mod_two_eq_zero_or_one n with h | h <;> simp [h, Nat.add_mod]
    rw [zerosBelow_succ_parity, ih, e2, xorExcept]
    rcases Nat.lt_trichotomy pc n with h | h | h
    · have h1 : pc < n + 1 := by omega
      have h2 : n ≠ pc := by omega
      simp only [h, h1, h2, decide_true, Bool.true_and, if_false]
      cases xorExcept F pc n <;> cases F.getLsbD n <;> cases F.getLsbD pc <;> simp
    · subst h
      simp
      cases xorExcept F pc pc <;> cases F.getLsbD pc <;> simp
    · have h1 : ¬ pc < n + 1 := by omega
      have h3 : ¬ pc < n := by omega
      have h2 : n ≠ pc := by omega
      simp only [h1, h2, h3, decide_false, Bool.false_and, if_false]
      cases xorExcept F pc n <;> cases F.getLsbD n <;> simp

theorem Rate.pcPos_lt (r : Rate) : r.pcPos < 64 := by cases r <;> decide

/-- The polarity-correction bit is the XOR of the others, of the finished frame (R267). -/
theorem putPolarity_self (r : Rate) (F : FrameBits) :
    (putPolarity r F).getLsbD r.pcPos = xorExcept (putPolarity r F) r.pcPos 80 := by
  have hp := Rate.pcPos_lt r
  rw [putPolarity, getLsbD_putBit _ _ _ _ (by omega), if_pos rfl]
  apply xorExcept_congr
  intro i hi hne
  rw [getLsbD_putBit _ _ _ _ hi, if_neg hne]

theorem putPolarity_other (r : Rate) (F : FrameBits) {i : Nat} (hi : i < 80) (hn : i ≠ r.pcPos) :
    (putPolarity r F).getLsbD i = F.getLsbD i := by
  rw [putPolarity, getLsbD_putBit _ _ _ _ hi, if_neg hn]

/-- So the count of 0 bits is even (R267). -/
theorem putPolarity_zeros (r : Rate) (F : FrameBits) : zerosBelow (putPolarity r F) 80 % 2 = 0 := by
  have h := zerosBelow_parity (putPolarity r F) r.pcPos 80
  have hp : r.pcPos < 80 := Nat.lt_trans (Rate.pcPos_lt r) (by decide)
  rw [← putPolarity_self] at h
  simp [hp] at h
  omega

/-- Where the flags go (R265, R266, R132). -/
theorem putFlags_getLsbD (r : Rate) (df cf : Bool) (G : BitVec 8) (F : FrameBits) {i : Nat}
    (h : i < 80) :
    (putFlags r df cf G F).getLsbD i =
      if i = r.bgf2Pos then G.getLsbD 2 else if i = r.bgf1Pos then G.getLsbD 1
      else if i = r.bgf0Pos then G.getLsbD 0 else if i = 11 then cf else if i = 10 then df
      else F.getLsbD i := by
  simp only [putFlags, getLsbD_putBit _ _ _ _ h]

/-- The digits and the user bits, bit by bit (R126). -/
theorem data_getLsbD (U : Word) (t : Timecode) {i : Nat} (h : i < 64) :
    (putUserBits U (putDigits t 0)).getLsbD i =
      if i < 4 then (t.f % 10).testBit i
      else if i < 8 then (ubNibble U 1).testBit (i - 4)
      else if i < 10 then (t.f / 10 % 4).testBit (i - 8)
      else if i < 12 then false
      else if i < 16 then (ubNibble U 2).testBit (i - 12)
      else if i < 20 then (t.s % 10).testBit (i - 16)
      else if i < 24 then (ubNibble U 3).testBit (i - 20)
      else if i < 27 then (t.s / 10).testBit (i - 24)
      else if i < 28 then false
      else if i < 32 then (ubNibble U 4).testBit (i - 28)
      else if i < 36 then (t.m % 10).testBit (i - 32)
      else if i < 40 then (ubNibble U 5).testBit (i - 36)
      else if i < 43 then (t.m / 10).testBit (i - 40)
      else if i < 44 then false
      else if i < 48 then (ubNibble U 6).testBit (i - 44)
      else if i < 52 then (t.h % 10).testBit (i - 48)
      else if i < 56 then (ubNibble U 7).testBit (i - 52)
      else if i < 58 then (t.h / 10).testBit (i - 56)
      else if i < 60 then false
      else (ubNibble U 8).testBit (i - 60) := by
  simp only [putUserBits, putDigits, getLsbD_put _ _ _ _ _ (show i < 80 by omega),
    show (0 : FrameBits).getLsbD i = false by simp]
  interval_cases i <;> rfl

/-- The sync word in an assembled frame. -/
theorem assembleFrame_high (t : Timecode) (r : Rate) (df cf : Bool) (U : Word) (G : BitVec 8) {i : Nat}
    (h : 64 ≤ i) (hi : i < 80) :
    (assembleFrame t r df cf U G).getLsbD i = syncWord.testBit (i - 64) := by
  have hp := Rate.pcPos_lt r
  rw [assembleFrame, putPolarity_other _ _ hi (by omega), getLsbD_put _ _ _ _ _ hi,
    if_pos ⟨h, by omega⟩]

/-- Below the sync word, but for the polarity-correction bit. -/
theorem assembleFrame_low (t : Timecode) (r : Rate) (df cf : Bool) (U : Word) (G : BitVec 8) {i : Nat}
    (h : i < 64) (hn : i ≠ r.pcPos) :
    (assembleFrame t r df cf U G).getLsbD i =
      (putFlags r df cf G (putUserBits U (putDigits t 0))).getLsbD i := by
  rw [assembleFrame, putPolarity_other _ _ (by omega) hn, getLsbD_put _ _ _ _ _ (by omega),
    if_neg (by omega)]

/-- Off the six flag positions, the digits and the user bits. -/
theorem assembleFrame_data (t : Timecode) (r : Rate) (df cf : Bool) (U : Word) (G : BitVec 8)
    {i : Nat} (h : i < 64) (hn : i ≠ 10 ∧ i ≠ 11 ∧ i ≠ 27 ∧ i ≠ 43 ∧ i ≠ 58 ∧ i ≠ 59) :
    (assembleFrame t r df cf U G).getLsbD i = (putUserBits U (putDigits t 0)).getLsbD i := by
  obtain ⟨h1, h2, h3, h4, h5, h6⟩ := hn
  rw [assembleFrame_low _ _ _ _ _ _ h (by cases r <;> assumption), putFlags_getLsbD _ _ _ _ _ (by omega),
    if_neg (by cases r <;> assumption), if_neg (by cases r <;> assumption),
    if_neg (by cases r <;> assumption), if_neg h2, if_neg h1]

/-- A field of a frame from its bits. -/
theorem fieldOf_eq {F : FrameBits} {p w d : Nat} (hd : d < 2 ^ w)
    (h : ∀ i, i < w → F.getLsbD (p + i) = d.testBit i) : fieldOf F p w = d := by
  unfold fieldOf
  apply Nat.eq_of_testBit_eq
  intro i
  rw [BitVec.testBit_toNat, BitVec.getLsbD_extractLsb']
  by_cases hi : i < w
  · simp [hi, h i hi]
  · have : d < 2 ^ i := Nat.lt_of_lt_of_le hd (Nat.pow_le_pow_right (by omega) (by omega))
    simp [hi, Nat.testBit_lt_two_pow this]

theorem fieldOf_testBit (F : FrameBits) (p : Nat) {w i : Nat} (hi : i < w) :
    (fieldOf F p w).testBit i = F.getLsbD (p + i) := by
  rw [fieldOf, BitVec.testBit_toNat, BitVec.getLsbD_extractLsb']
  simp [hi]

theorem ubNibble_lt (U : Word) (k : Nat) : ubNibble U k < 2 ^ 4 := BitVec.isLt _

theorem ubNibble_eq (U : Word) (k : Nat) : ubNibble U k = U.toNat / 2 ^ (4 * k - 4) % 2 ^ 4 :=
  extract_toNat _ _ _

end Sys2Proof.Machine
end

