-- ==== Sys2Proof/Laws/Modulator.lean ====
section
/-!
SUPPORT. The modulator: the polarity bit by bit, the two half-bits of a bit, and the arithmetic of the
sample grid.
-/

namespace Sys2Proof.Machine

@[simp] theorem polAtBit_zero (F : FrameBits) (P : Bool) : polAtBit F P 0 = P := by
  simp [polAtBit, zerosBelow]

/-- A 0 bit inverts the polarity, a 1 bit leaves it (R302). -/
theorem polAtBit_succ (F : FrameBits) (P : Bool) (i : Nat) :
    polAtBit F P (i + 1) = (polAtBit F P i ^^ F.getLsbD i ^^ true) := by
  rw [polAtBit, polAtBit, zerosBelow_succ_parity]
  cases F.getLsbD i <;> simp

theorem halfLevel_first (c : BmcConvention) (F : FrameBits) (P : Bool) (i : Nat) :
    halfLevel c F P (2 * i) = bitLevel c (polAtBit F P i) (F.getLsbD i) false := by
  have h : decide (2 * i % 2 = 1) = false := by simp
  rw [halfLevel, show 2 * i / 2 = i by omega, h]

/-- The second half-bit is the polarity after the bit, under both conventions (R304). -/
theorem halfLevel_second (c : BmcConvention) (F : FrameBits) (P : Bool) (i : Nat) :
    halfLevel c F P (2 * i + 1) = polAtBit F P (i + 1) := by
  have h : decide ((2 * i + 1) % 2 = 1) = true := by simp
  rw [halfLevel, show (2 * i + 1) / 2 = i by omega, h, polAtBit_succ]
  simp [bitLevel]

theorem Rate.num_pos (r : Rate) : 0 < r.num := by cases r <;> decide

theorem Rate.den_pos (r : Rate) : 0 < r.den := by cases r <;> decide

theorem gridD_pos (r : Rate) : 0 < gridD r := by cases r <;> decide

theorem gridK_pos (r : Rate) {sr : Nat} (h : 0 < sr) : 0 < gridK r sr :=
  Nat.mul_pos h (Rate.den_pos r)

/-- The grid where it is defined (R310). -/
theorem halfBitOf_pos (r : Rate) {sr : Nat} (h : 0 < sr) (s : Nat) :
    halfBitOf r sr s = s * gridD r / gridK r sr := by
  rw [halfBitOf, if_neg (by omega)]

theorem halfBitOf_mono (r : Rate) {sr : Nat} (h : 0 < sr) {a b : Nat} (hab : a ≤ b) :
    halfBitOf r sr a ≤ halfBitOf r sr b := by
  rw [halfBitOf_pos r h, halfBitOf_pos r h]
  exact Nat.div_le_div_right (Nat.mul_le_mul_right _ hab)

theorem ceilDiv_le {a b n : Nat} (hb : 0 < b) : ceilDiv a b ≤ n ↔ a ≤ n * b := by
  unfold ceilDiv
  rw [← Nat.lt_succ_iff, Nat.div_lt_iff_lt_mul hb, Nat.succ_mul]
  omega

theorem lt_ceilDiv {a b n : Nat} (hb : 0 < b) : n < ceilDiv a b ↔ n * b < a := by
  have := ceilDiv_le (a := a) (n := n) hb
  omega

theorem ceilDiv_mul_right {a b c : Nat} (hc : 0 < c) (hb : 0 < b) :
    ceilDiv (a * c) (b * c) = ceilDiv a b := by
  apply Nat.le_antisymm
  · rw [ceilDiv_le (Nat.mul_pos hb hc), ← Nat.mul_assoc]
    exact Nat.mul_le_mul_right c ((ceilDiv_le hb).mp (Nat.le_refl _))
  · rw [ceilDiv_le hb]
    have := (ceilDiv_le (Nat.mul_pos hb hc)).mp (Nat.le_refl (ceilDiv (a * c) (b * c)))
    rw [← Nat.mul_assoc] at this
    exact Nat.le_of_mul_le_mul_right this hc

/-- The carries of the accumulator: enough turns leave a remainder below `K` and keep the sum. -/
theorem GridAcc.carry_spec {K : Nat} (hK : 0 < K) (fuel : Nat) :
    ∀ a : GridAcc, a.acc ≤ fuel →
      (GridAcc.carry K fuel a).acc < K ∧
        (GridAcc.carry K fuel a).j * K + (GridAcc.carry K fuel a).acc = a.j * K + a.acc := by
  induction fuel with
  | zero => intro a h; simp [GridAcc.carry]; omega
  | succ n ih =>
    intro a h
    rw [GridAcc.carry]
    split
    · have := ih { j := a.j + 1, acc := a.acc - K } (by simp; omega)
      refine ⟨this.1, this.2.trans ?_⟩
      simp only [Nat.add_mul]; omega
    · exact ⟨by omega, rfl⟩

theorem framesFor_succ (r : Rate) (sr s : Nat) :
    framesFor r sr (s + 1) = halfBitOf r sr s / 160 + 1 := by
  simp [framesFor]

/-- The frames assembled so far never exceed those the next sample needs (R346). -/
theorem framesFor_le (r : Rate) {sr : Nat} (h : 0 < sr) (s : Nat) :
    framesFor r sr s ≤ halfBitOf r sr s / 160 + 1 := by
  unfold framesFor
  split
  · omega
  · have h1 := halfBitOf_mono r h (show s - 1 ≤ s by omega)
    have h2 := Nat.div_le_div_right (c := 160) h1
    omega

end Sys2Proof.Machine
end

