-- ==== Sys2Proof/Laws/PerInstr.lean ====
section
/-!
SUPPORT. Per instruction: the access that carries it fits its row of spec/opcode_table.json, mask and
match, with no bit above the row's width.
-/

namespace Sys2Proof.Laws.TableRow

open Sys2Proof

/-- The bits of an access that the table numbers: the command word, or the bus descriptor. -/
def bits : Access → Nat
  | .cmd v => v.toNat
  | .bus _ desc _ => desc.toNat

/-- `mask` of the instruction's row. -/
def mask : Instr → Nat
  | .nop => 0xFFFFFFFF
  | .start => 0xFFFFFFFF
  | .tcLoad => 0xFFFFFFFF
  | .tcAdvance => 0xFFFFFFFF
  | .assemble => 0xFFFFFFFF
  | .ubMerge _ => 0xFFFFF0FF
  | .regRead _ => 0x103
  | .regWrite _ _ => 0x103
  | .emit => 0

/-- `match` of the instruction's row. -/
def pattern : Instr → Nat
  | .nop => 0x00000000
  | .start => 0x00000001
  | .tcLoad => 0x00000002
  | .tcAdvance => 0x00000003
  | .assemble => 0x00000004
  | .ubMerge _ => 0x00000005
  | .regRead _ => 0x000
  | .regWrite _ _ => 0x100
  | .emit => 0

/-- `width` of the instruction's row. -/
def width : Instr → Nat
  | .nop => 32
  | .start => 32
  | .tcLoad => 32
  | .tcAdvance => 32
  | .assemble => 32
  | .ubMerge _ => 32
  | .regRead _ => 9
  | .regWrite _ _ => 9
  | .emit => 0

/-- A well-formed instruction's access fits its row; EMIT, whose row has no bits, has no access. -/
def Statement (i : Instr) : Prop :=
  i.wellFormed = true →
    (i = .emit ∧ encode i = none) ∨
      ∃ a, encode i = some a ∧ bits a &&& mask i = pattern i ∧ bits a < 2 ^ width i

theorem nop : Statement .nop := fun _ => .inr ⟨_, rfl, by decide, by decide⟩

theorem start : Statement .start := fun _ => .inr ⟨_, rfl, by decide, by decide⟩

theorem tcLoad : Statement .tcLoad := fun _ => .inr ⟨_, rfl, by decide, by decide⟩

theorem tcAdvance : Statement .tcAdvance := fun _ => .inr ⟨_, rfl, by decide, by decide⟩

theorem assemble : Statement .assemble := fun _ => .inr ⟨_, rfl, by decide, by decide⟩

theorem ubMerge (m : BitVec 4) : Statement (.ubMerge m) := by
  refine fun _ => .inr ⟨_, rfl, ?_, ?_⟩ <;> revert m <;> decide

theorem regRead (off : Offset) : Statement (.regRead off) := by
  intro h
  refine .inr ⟨_, rfl, ?_, BitVec.isLt _⟩
  revert h
  revert off
  decide

theorem regWrite (off : Offset) (v : Word) : Statement (.regWrite off v) := by
  intro h
  refine .inr ⟨_, rfl, ?_, BitVec.isLt _⟩
  have h' : Offset.aligned off = true := h
  show (busDesc true off).toNat &&& 0x103 = 0x100
  revert h'
  clear h v
  revert off
  decide

theorem emit : Statement .emit := fun _ => .inl ⟨rfl, rfl⟩

end Sys2Proof.Laws.TableRow
end

