-- ==== Sys2Proof/Laws/Run.lean ====
section
/-!
SUPPORT. The engine: the frames EMIT assembles, and what EMIT can do.
-/

namespace Sys2Proof.Machine

/-- The frames assembled change four fields of the block and no other (R345). -/
theorem Block.nextFrames_frame (p : Params) (n : Nat) (b : Block) :
    b.nextFrames p n =
      { b with
        pol := (b.nextFrames p n).pol, frame := (b.nextFrames p n).frame
        clk := (b.nextFrames p n).clk, frames := (b.nextFrames p n).frames } := by
  induction n generalizing b with
  | zero => rfl
  | succ n ih => rw [Block.nextFrames, ih]; rfl

/-- What one turn keeps, all turns keep. -/
theorem Block.nextFrames_induct {p : Params} {P : Block → Prop} (h : ∀ b, P b → P (b.nextFrame p))
    (n : Nat) : ∀ {b : Block}, P b → P (b.nextFrames p n) := by
  induction n with
  | zero => exact fun hb => hb
  | succ n ih => exact fun hb => ih (h _ hb)

theorem Block.nextFrames_frames (p : Params) (n : Nat) (b : Block) :
    (b.nextFrames p n).frames = b.frames + n := by
  induction n generalizing b with
  | zero => rfl
  | succ n ih =>
    rw [Block.nextFrames, ih]
    simp [Block.nextFrame]
    omega

/-- The handoff leaves the polarity where the frame held has an even number of 0 bits (R307). -/
theorem Block.handoff_even {b : Block} (h : zerosBelow b.frame 80 % 2 = 0) : b.handoff = b.pol := by
  unfold Block.handoff endPol polAtBit
  simp [h]

theorem State.emitEnabled_iff (s : State) :
    s.emitEnabled = true ↔ s.blk.busy = true ∧ s.sink.ready = true := by
  simp [State.emitEnabled]

/-- What EMIT can do: nothing where it is not enabled, one sample where it is (R345). -/
theorem execEmit_cases (s : State) :
    (s.emitEnabled = false ∧ exec .emit s = .next s) ∨
      (s.blk.busy = true ∧ s.sink.ready = true ∧ exec .emit s = .next s.emitSample) := by
  cases h : s.emitEnabled with
  | false => exact .inl ⟨rfl, by simp [exec, execEmit, h]⟩
  | true =>
    have h' := (s.emitEnabled_iff).mp h
    exact .inr ⟨h'.1, h'.2, by simp [exec, execEmit, h]⟩

/-- One sample, of a block whose frames are assembled: what is counted and what stays (R345, R350). -/
theorem Block.countSample_eq {p : Params} {n : Nat} {b : Block} (hb : b.busy = true) (level : Bool) :
    (b.nextFrames p n).countSample level =
      { b with
        pol := (b.nextFrames p n).pol, frame := (b.nextFrames p n).frame
        clk := (b.nextFrames p n).clk, frames := (b.nextFrames p n).frames
        level := level, samples := b.samples + 1
        busy := decide (b.samples + 1 ≠ b.runN.toNat)
        done := b.done || decide (b.samples + 1 = b.runN.toNat) } := by
  rw [Block.countSample, Block.nextFrames_frame]
  simp only [hb]
  by_cases h : b.samples + 1 = b.runN.toNat <;> simp [h]

end Sys2Proof.Machine
end

