-- ==== Sys2Proof/Laws/Step.lean ====
section
/-!
SUPPORT. The step: what a command, an access and an instant can do, each said once.
-/

namespace Sys2Proof.Machine

theorem next_injective {s t : State}
    (h : (Host.Outcome.next s : Host.Outcome State Fault Refusal) = .next t) : s = t := by
  injection h

theorem decodeBus_error {bytes : Nat} {desc : BitVec 9} {data : Word} {e : DecodeError}
    (h : decodeBus bytes desc data = .error e) :
    (e = .accessWidth ∧ bytes ≠ 4) ∨ (e = .misaligned ∧ desc.toNat % 4 ≠ 0) := by
  unfold decodeBus at h
  split at h
  · injection h with h; exact .inl ⟨h.symm, ‹_›⟩
  split at h
  · rename_i ha
    rw [aligned_false_iff, descOffset_toNat] at ha
    injection h with h
    exact .inr ⟨h.symm, by omega⟩
  · split at h <;> contradiction

/-- A well-formed instruction always completes. -/
theorem exec_wellFormed {i : Instr} (h : i.wellFormed = true) (s : State) : ∃ t, exec i s = .next t := by
  cases i with
  | regRead off => exact ⟨_, if_pos h⟩
  | regWrite off v => exact ⟨_, if_pos h⟩
  | nop | start | tcLoad | tcAdvance | assemble | ubMerge | emit => exact ⟨_, rfl⟩

/-- Opcodes by number. -/
theorem op_eq_iff (x : BitVec 8) {k : Nat} (hk : k < 256) : x = BitVec.ofNat 8 k ↔ x.toNat = k := by
  rw [← BitVec.toNat_inj, BitVec.toNat_ofNat, Nat.mod_eq_of_lt (by omega)]

/-- A word the decoder rejects is one the block rejects, with code 2 or 3 (R112, R113). -/
theorem decodeCommand_error {v : Word} {e : DecodeError} (h : decodeCommand v = .error e) (b : Block) :
    (e = .reservedOpcode ∧ acceptCode (cmdOp v) (cmdArg v) (cmdHi v) b = 2) ∨
      (e = .reservedBits ∧ acceptCode (cmdOp v) (cmdArg v) (cmdHi v) b = 3) := by
  unfold decodeCommand at h
  unfold acceptCode
  split at h
  · injection h with h
    exact .inl ⟨h.symm, if_pos ‹_›⟩
  rename_i h1
  rw [if_neg h1]
  split at h
  · injection h with h
    exact .inr ⟨h.symm, if_pos ‹_›⟩
  rename_i h2
  rw [if_neg h2]
  split at h
  · rename_i h3
    split at h
    · rename_i h4
      injection h with h
      exact .inr ⟨h.symm, if_pos ⟨h3, h4⟩⟩
    · contradiction
  · rename_i h3
    rw [if_neg (fun x => h3 x.1)]
    split at h
    · rename_i h4
      injection h with h
      exact .inr ⟨h.symm, if_pos ⟨h3, h4⟩⟩
    · exfalso
      unfold plainCommand at h
      repeat' split at h
      all_goals first | contradiction | skip
      rename_i n0 n1 n2 n3 n4
      have hn : ∀ {k : Nat}, k < 256 → cmdOp v ≠ BitVec.ofNat 8 k → (cmdOp v).toNat ≠ k :=
        fun hk hx hy => hx ((op_eq_iff _ hk).mpr hy)
      have := hn (k := 0) (by decide) n0
      have := hn (k := 1) (by decide) n1
      have := hn (k := 2) (by decide) n2
      have := hn (k := 3) (by decide) n3
      have := hn (k := 4) (by decide) n4
      have := hn (k := 5) (by decide) h3
      omega

/-- An accepted command word is one of the six commands, with what its acceptance says (R111, R176). -/
theorem acceptCode_eq_zero {v : Word} {b : Block}
    (h : acceptCode (cmdOp v) (cmdArg v) (cmdHi v) b = 0) :
    (v = 0x00000000) ∨ (v = 0x00000001 ∧ b.busy = false) ∨ (v = 0x00000002 ∧ b.busy = false) ∨
      (v = 0x00000003 ∧ b.busy = false ∧ b.clkValid = true) ∨
      (v = 0x00000004 ∧ b.busy = false ∧ b.clkValid = true) ∨ ∃ m : BitVec 4, v = commandWord 0x05 (0#4 ++ m) := by
  unfold acceptCode at h
  split at h
  · contradiction
  split at h
  · contradiction
  rename_i hop hhi
  have hv := commandWord_of_fields (not_not.mp hhi)
  split at h
  · contradiction
  rename_i harg
  split at h
  · contradiction
  rename_i harg'
  split at h
  · contradiction
  rename_i hbusy
  split at h
  · contradiction
  rename_i hclk
  have hb : ∀ {x : BitVec 8}, cmdOp v = x → (x = 0x01 ∨ x = 0x02 ∨ x = 0x03 ∨ x = 0x04) →
      b.busy = false := by
    rintro x rfl hx
    by_contra hne
    exact hbusy ⟨by simpa using hne, hx⟩
  have hc : ∀ {x : BitVec 8}, cmdOp v = x → (x = 0x03 ∨ x = 0x04) → b.clkValid = true := by
    rintro x rfl hx
    by_contra hne
    exact hclk ⟨hx, by simpa using hne⟩
  have ha : ∀ {x : BitVec 8}, cmdOp v = x → x ≠ 0x05 → v = commandWord x 0x00 := by
    rintro x rfl hx
    rw [show cmdArg v = 0x00 from not_not.mp fun h0 => harg' ⟨hx, h0⟩] at hv
    exact hv
  have hcase : (cmdOp v).toNat = 0 ∨ (cmdOp v).toNat = 1 ∨ (cmdOp v).toNat = 2 ∨
      (cmdOp v).toNat = 3 ∨ (cmdOp v).toNat = 4 ∨ (cmdOp v).toNat = 5 := by omega
  rcases hcase with e | e | e | e | e | e <;> rw [← op_eq_iff _ (by decide)] at e
  · exact .inl ((ha e (by decide)).trans rfl)
  · exact .inr (.inl ⟨(ha e (by decide)).trans rfl, hb e (by decide)⟩)
  · exact .inr (.inr (.inl ⟨(ha e (by decide)).trans rfl, hb e (by decide)⟩))
  · exact .inr (.inr (.inr (.inl ⟨(ha e (by decide)).trans rfl, hb e (by decide), hc e (by decide)⟩)))
  · exact .inr (.inr (.inr (.inr (.inl
      ⟨(ha e (by decide)).trans rfl, hb e (by decide), hc e (by decide)⟩))))
  · refine .inr (.inr (.inr (.inr (.inr ⟨argMask (cmdArg v), ?_⟩))))
    have hh : argHigh (cmdArg v) = 0 := by
      by_contra hne
      exact harg ⟨e, hne⟩
    rw [arg_of_mask hh]
    rw [e] at hv
    exact hv

theorem Block.perform_ubMerge (p : Params) (m : BitVec 4) (b : Block) :
    Block.perform p (cmdOp (commandWord 0x05 (0#4 ++ m))) (cmdArg (commandWord 0x05 (0#4 ++ m))) b =
      b.ubMerge m := by
  rw [cmdOp_commandWord, cmdArg_commandWord]
  show b.ubMerge (argMask (0#4 ++ m)) = _
  rw [argMask_mask]

/-- What a command can do: a rejection, or one of the six bodies after the bookkeeping (R175). -/
theorem Block.command_cases (p : Params) (v : Word) (b : Block) :
    (∃ c : BitVec 3, c ≠ 0 ∧ c.toNat ≤ 4 ∧ b.command p v = b.rejectCmd c) ∨
      (v = 0x00000000 ∧ b.command p v = b.clearReject) ∨
      (v = 0x00000001 ∧ b.busy = false ∧ b.command p v = b.clearReject.start p) ∨
      (v = 0x00000002 ∧ b.busy = false ∧ b.command p v = b.clearReject.tcLoad p) ∨
      (v = 0x00000003 ∧ b.busy = false ∧ b.clkValid = true ∧
        b.command p v = b.clearReject.tcAdvance p) ∨
      (v = 0x00000004 ∧ b.busy = false ∧ b.clkValid = true ∧
        b.command p v = b.clearReject.assemble) ∨
      ∃ m : BitVec 4, v = commandWord 0x05 (0#4 ++ m) ∧ b.command p v = b.clearReject.ubMerge m := by
  rcases Block.issue_cases b (cmdOp v) (cmdArg v) (cmdHi v) (Block.perform p (cmdOp v) (cmdArg v))
    with ⟨h, e⟩ | ⟨h, e⟩
  · exact .inl ⟨_, h, acceptCode_le _ _ _ _, e⟩
  · have e' : b.command p v = Block.perform p (cmdOp v) (cmdArg v) b.clearReject := e
    right
    rcases acceptCode_eq_zero h with rfl | ⟨rfl, h1⟩ | ⟨rfl, h1⟩ | ⟨rfl, h1, h2⟩ | ⟨rfl, h1, h2⟩ |
      ⟨m, rfl⟩
    · exact .inl ⟨rfl, e'⟩
    · exact .inr (.inl ⟨rfl, h1, e'⟩)
    · exact .inr (.inr (.inl ⟨rfl, h1, e'⟩))
    · exact .inr (.inr (.inr (.inl ⟨rfl, h1, h2, e'⟩)))
    · exact .inr (.inr (.inr (.inr (.inl ⟨rfl, h1, h2, e'⟩))))
    · exact .inr (.inr (.inr (.inr (.inr ⟨m, rfl, e'.trans (Block.perform_ubMerge p m _)⟩))))

/-- A whole-word write to `CMD` in format BUS is the command (R115). -/
theorem serve_busCommand (v : Word) (s : State) :
    serve (.access (.bus 4 0x100 v)) s = .next (s.setBlk (s.blk.command s.params v)) := rfl

/-- A command word in format CMD is the same command: rejected where it does not decode (R112, R113),
and performed where it does. -/
theorem serve_command (v : Word) (s : State) :
    serve (.access (.cmd v)) s = .next (s.setBlk (s.blk.command s.params v)) := by
  simp only [serve, decode]
  cases hd : decodeCommand v with
  | error e =>
    rcases decodeCommand_error hd s.blk with ⟨rfl, h⟩ | ⟨rfl, h⟩ <;>
      (rw [Block.command, Block.issue_reject h (by decide)]; rfl)
  | ok i =>
    obtain ⟨_, he⟩ := decodeCommand_ok hd
    cases i with
    | nop | start | tcLoad | tcAdvance | assemble =>
      injection he with he
      injection he with he
      subst he
      rfl
    | ubMerge m =>
      injection he with he
      injection he with he
      subst he
      have ha := acceptCode_ubMerge m s.blk
      simp only [exec, execUbMerge, Block.issue_accept ha]
      rw [Block.command, Block.issue_accept, Block.perform_ubMerge]
      rw [cmdOp_commandWord, cmdArg_commandWord, cmdHi_commandWord]
      exact ha
    | regRead off => injection he with he; contradiction
    | regWrite off w => injection he with he; contradiction
    | emit => contradiction

theorem serve_access {a : Access} {i : Instr} (h : decode a = .ok i) (s : State) :
    serve (.access a) s = exec i s := by
  simp [serve, h]

/-- What an access can do: a word is returned, a command is performed (R175), or a register other
than `CMD` is written (R172). -/
theorem serve_access_cases {a : Access} {s t : State} (h : serve (.access a) s = .next t) :
    (∃ v, t = s.pushReply v) ∨
      (∃ v, (a = .cmd v ∨ a = .bus 4 0x100 v) ∧ t = s.setBlk (s.blk.command s.params v)) ∨
      ∃ off v, off ≠ 0x00 ∧ t = s.setBlk (s.blk.writeWord off v) := by
  cases a with
  | cmd v =>
    rw [serve_command] at h
    exact .inr (.inl ⟨v, .inl rfl, (next_injective h).symm⟩)
  | bus bytes desc data =>
    simp only [serve, decode] at h
    cases hd : decodeBus bytes desc data with
    | error e =>
      rw [hd] at h
      rcases decodeBus_error hd with ⟨rfl, _⟩ | ⟨rfl, _⟩ <;> contradiction
    | ok i =>
      rw [hd] at h
      obtain ⟨rfl, hw, ⟨hdesc, rfl⟩ | ⟨hdesc, rfl⟩⟩ := decodeBus_ok hd
      · have e : exec (.regWrite (descOffset desc) data) s = _ := if_pos hw
        have h' := next_injective (e.symm.trans h)
        by_cases h0 : descOffset desc = 0x00
        · rw [if_pos h0] at h'
          refine .inr (.inl ⟨data, .inr ?_, h'.symm⟩)
          rw [show (0x100 : BitVec 9) = busDesc true 0x00 by decide, ← h0, ← hdesc]
        · rw [if_neg h0] at h'
          exact .inr (.inr ⟨_, _, h0, h'.symm⟩)
      · have e : exec (.regRead (descOffset desc)) s = _ := if_pos hw
        exact .inl ⟨_, (next_injective (e.symm.trans h)).symm⟩

/-- What a step can do (R14, R430). -/
theorem step_cases {s t : State} (h : step s = .next t) :
    (s.pending = [] ∧ t = s) ∨ ∃ x rest, s.pending = x :: rest ∧
      ((x.reset = true ∧ t = (s.reach x rest).takeReset) ∨
        (x.reset = false ∧
          ((x.request = .idle ∧ t = s.reach x rest) ∨
            (x.request = .engine ∧ exec .emit (s.reach x rest) = .next t) ∨
            (∃ v, t = (s.reach x rest).pushReply v) ∨
            (∃ v, (x.request = .access (.cmd v) ∨ x.request = .access (.bus 4 0x100 v)) ∧
              t = (s.reach x rest).setBlk (s.blk.command s.params v)) ∨
            ∃ off v, off ≠ 0x00 ∧ t = (s.reach x rest).setBlk (s.blk.writeWord off v)))) := by
  unfold step at h
  split at h
  · exact .inl ⟨‹_›, (next_injective h).symm⟩
  · rename_i x rest hp
    refine .inr ⟨x, rest, hp, ?_⟩
    cases hr : x.reset with
    | true => rw [hr, if_pos rfl] at h; exact .inl ⟨rfl, (next_injective h).symm⟩
    | false =>
      rw [hr, if_neg (by decide)] at h
      refine .inr ⟨rfl, ?_⟩
      cases hq : x.request with
      | idle => rw [hq] at h; exact .inl ⟨rfl, (next_injective h).symm⟩
      | engine => rw [hq] at h; exact .inr (.inl ⟨rfl, h⟩)
      | access a =>
        rw [hq] at h
        rcases serve_access_cases h with ⟨v, e⟩ | ⟨v, ha, e⟩ | ⟨off, v, h0, e⟩
        · exact .inr (.inr (.inl ⟨v, e⟩))
        · refine .inr (.inr (.inr (.inl ⟨v, ?_, e⟩)))
          rcases ha with rfl | rfl
          · exact .inl rfl
          · exact .inr rfl
        · exact .inr (.inr (.inr (.inr ⟨off, v, h0, e⟩)))

/-- A step that answers a next state is the first of a longer run. -/
theorem run_succ (M : Host.Core) (k : Nat) {s s' : M.State} (h : M.step s = .next s') :
    M.run (k + 1) s = M.run k s' := by
  rw [Host.Core.run, h]

/-- The same of this machine, with its step by name. -/
theorem core_run_succ (k : Nat) {s t : State} (h : step s = .next t) :
    Host.Core.run Sys2Proof.core (k + 1) s = Host.Core.run Sys2Proof.core k t :=
  run_succ Sys2Proof.core k h

/-- A write of a register other than `CMD`, in format BUS (R172). -/
theorem serve_write {off : Offset} (ha : Offset.aligned off = true) (h0 : off ≠ 0x00) (v : Word)
    (s : State) :
    serve (.access (.bus 4 (busDesc true off) v)) s = .next (s.setBlk (s.blk.writeWord off v)) := by
  have hd : decode (.bus 4 (busDesc true off) v) = .ok (.regWrite off v) := decodeBus_busDesc true ha v
  rw [serve_access hd, exec, execRegWrite, if_pos ha, if_neg h0]

end Sys2Proof.Machine
end

