-- ==== Sys2Proof/Tests/Slice0.lean ====
section
/-!
SUPPORT. Tests of the model on the words and vectors the spec writes out (spec/30_encoding.md,
spec/95_test_vectors.md), and for every statement with hypotheses a witness that meets them.
-/

namespace Sys2Proof.Tests

open Sys2Proof Sys2Proof.Machine Sys2Proof.Claims

/-! ### Ill-formed terms -/

/-- R81: offsets that are not a multiple of 4. -/
theorem test_wellFormed_refuses_misaligned_read :
    (Instr.regRead 0x01).wellFormed = false ∧ (Instr.regRead 0x46).wellFormed = false ∧
      (Instr.regRead 0xFF).wellFormed = false := by decide

theorem test_wellFormed_refuses_misaligned_write :
    (Instr.regWrite 0x02 0).wellFormed = false ∧ (Instr.regWrite 0xFD 5).wellFormed = false := by
  decide

theorem test_wellFormed_accepts_aligned :
    (Instr.regRead 0xFC).wellFormed = true ∧ (Instr.regWrite 0x00 0).wellFormed = true := by decide

/-! ### Decoding, by the words of R111, R112 and R115 -/

theorem test_decode_nop : decode (.cmd 0b00000000000000000000000000000000) = .ok .nop := by decide

theorem test_decode_start : decode (.cmd 0b00000000000000000000000000000001) = .ok .start := by decide

theorem test_decode_tcLoad : decode (.cmd 0b00000000000000000000000000000010) = .ok .tcLoad := by
  decide

theorem test_decode_tcAdvance :
    decode (.cmd 0b00000000000000000000000000000011) = .ok .tcAdvance := by decide

theorem test_decode_assemble :
    decode (.cmd 0b00000000000000000000000000000100) = .ok .assemble := by decide

/-- `0x00000m05` with `m` in bits [11:8] (R241). -/
theorem test_decode_ubMerge :
    decode (.cmd 0b00000000000000000000110000000101) = .ok (.ubMerge 0b1100) := by decide

/-- `WE` 0 in bit 8, `OFFSET` 0x28 (R115). -/
theorem test_decode_regRead : decode (.bus 4 0b000101000 0) = .ok (.regRead 0x28) := by decide

/-- `WE` 1 in bit 8, `OFFSET` 0x0C (R115; program P1). -/
theorem test_decode_regWrite :
    decode (.bus 4 0b100001100 0x011E2D0A) = .ok (.regWrite 0x0C 0x011E2D0A) := by decide

/-- EMIT has no host encoding (R115). -/
theorem test_emit_has_no_encoding : encode .emit = none := by decide

/-- K2, K3, K4, K12: reserved opcode, reserved bits. -/
theorem test_decode_rejects_words :
    decode (.cmd 0x000000FF) = .error .reservedOpcode ∧ decode (.cmd 0x00000006) = .error .reservedOpcode ∧
      decode (.cmd 0x00010000) = .error .reservedBits ∧ decode (.cmd 0x00000101) = .error .reservedBits ∧
      decode (.cmd 0x00001005) = .error .reservedBits := by decide

/-- R81: widths other than 4 bytes, and misaligned offsets. -/
theorem test_decode_rejects_accesses :
    decode (.bus 2 0x008 0) = .error .accessWidth ∧ decode (.bus 8 0x108 0) = .error .accessWidth ∧
      decode (.bus 4 0x00A 0) = .error .misaligned ∧ decode (.bus 4 0x101 0) = .error .misaligned := by
  decide

/-- The rows of spec/opcode_table.json, by their bits. -/
theorem test_decodeTableWord :
    decodeTableWord 32 0x00000003 = some .tcAdvance ∧ decodeTableWord 16 0x044 = some (.regRead 0x44) ∧
      decodeTableWord 16 0x100 = some (.regWrite 0x00 0) ∧ decodeTableWord 32 0x00000007 = none ∧
      decodeTableWord 16 0x003 = none := by decide

/-- The word a row stands for is the first instruction after reset. -/
theorem test_withFetchWord :
    step (State.reset.withFetchWord 16 0x044) = exec (.regRead 0x44) State.reset ∧
      step (State.reset.withFetchWord 32 0x00000001) = exec .start State.reset := ⟨rfl, rfl⟩

/-! ### One step each, by the spec's vectors -/

/-- The state with a block of its own. -/
def withBlk (b : Block) : State := { State.reset with blk := b }

/-- The next state, or the state itself where the step stops. -/
def orElse (o : Host.Outcome State Fault Refusal) (s : State) : State :=
  match o with
  | .next t => t
  | .fault _ => s
  | .refused _ => s

/-- The block after an instruction. -/
def blkAfter (i : Instr) (b : Block) : Block := (orElse (exec i (withBlk b)) (withBlk b)).blk

/-- A register of a block, by its offset. -/
def rd (b : Block) (off : Offset) : Word := b.readWord off

/-- The block after reset. -/
def zero : Block := State.reset.blk

/-- Program P1 before its START. -/
def cfgP1 : Block :=
  { zero with cfg := 0x3, tcStart := 0x011E2D0A, sampleRate := 48000, duration := 48000 }

/-- Program P2 before its TC_LOAD. -/
def cfgP2 : Block := { zero with cfg := 0x12, tcStart := 0x00003B1D }

/-- K9: accepted, and the rejection is cleared. -/
theorem test_nop_clears_rejection :
    rd (blkAfter .nop { zero with reject := true, rejCode := 1 }) 0x04 = 0x00000000 := by decide

/-- P1 after `CMD START`. -/
theorem test_start_P1 :
    rd (blkAfter .start cfgP1) 0x04 = 0x00000001 ∧ rd (blkAfter .start cfgP1) 0x28 = 0x811E2D0A ∧
      rd (blkAfter .start cfgP1) 0x2C = 0 ∧ rd (blkAfter .start cfgP1) 0x30 = 0 := by decide

/-- V29: the sample rate is checked before the hours; V9: then the hours first of all fields. -/
theorem test_start_priority :
    rd (blkAfter .start { zero with cfg := 0x3, tcStart := 0x183C0000 }) 0x04 = 0x34 ∧
      rd (blkAfter .start { zero with cfg := 0x3, tcStart := 0x1F3F3F3F, sampleRate := 48000 }) 0x04
        = 0x44 := by decide

/-- The example of R205. -/
theorem test_tcLoad_P2 :
    rd (blkAfter .tcLoad cfgP2) 0x28 = 0x80003B1D ∧ rd (blkAfter .tcLoad cfgP2) 0x44 = 0x12 := by
  decide

/-- V18, V24: dropped frame values. -/
theorem test_tcLoad_dropped :
    rd (blkAfter .tcLoad { zero with cfg := 0x12, tcStart := 0x00010000 }) 0x04 = 0x84 ∧
      rd (blkAfter .tcLoad { zero with cfg := 0x14, tcStart := 0x00010003 }) 0x04 = 0x84 := by decide

/-- The example of R206, and T7. -/
theorem test_tcAdvance_drop :
    rd (blkAfter .tcAdvance (blkAfter .tcLoad cfgP2)) 0x28 = 0x80010002 ∧
      rd (blkAfter .tcAdvance (blkAfter .tcLoad { cfgP2 with tcStart := 0x00093B1D })) 0x28
        = 0x800A0000 := by decide

/-- K13. -/
theorem test_tcAdvance_not_loaded : rd (blkAfter .tcAdvance zero) 0x04 = 0x00000900 := by decide

/-- A1, the example of R270. -/
theorem test_assemble_A1 :
    rd (blkAfter .assemble (blkAfter .tcLoad cfgP1)) 0x34 = 0x04050100 ∧
      rd (blkAfter .assemble (blkAfter .tcLoad cfgP1)) 0x38 = 0x00010300 ∧
      rd (blkAfter .assemble (blkAfter .tcLoad cfgP1)) 0x3C = 0x0000BFFC := by decide +kernel

/-- A6, with a colour flag of 0 and the polarity-correction bit at 59: 25 fps, 12:34:56:24. -/
theorem test_assemble_A6 :
    rd (blkAfter .assemble (blkAfter .tcLoad { zero with cfg := 0x1, tcStart := 0x0C223818 })) 0x34
        = 0x05060204 ∧
      rd (blkAfter .assemble (blkAfter .tcLoad { zero with cfg := 0x1, tcStart := 0x0C223818 })) 0x38
        = 0x01020304 := by decide +kernel

/-- U1, the example of R241. -/
theorem test_ubMerge_U1 :
    (blkAfter (.ubMerge 0x5) { zero with ub := 0x11223344, ubStage := 0xAABBCCDD }).ub = 0x11BB33DD := by
  decide

/-- H2, and a reserved offset (H9). -/
theorem test_regRead_reply :
    (orElse (exec (.regRead 0x08) (withBlk cfgP2)) State.reset).replies = [0x12] ∧
      (orElse (exec (.regRead 0x80) (withBlk cfgP2)) State.reset).replies = [0] := by decide

/-- H3 to H6. -/
theorem test_regWrite_masks :
    rd (blkAfter (.regWrite 0x08 0xFFFFFFFF) zero) 0x08 = 0x00000037 ∧
      rd (blkAfter (.regWrite 0x0C 0xFFFFFFFF) zero) 0x0C = 0x1F3F3F3F ∧
      rd (blkAfter (.regWrite 0x1C 0xFFFFFFFF) zero) 0x1C = 0x0000010F ∧
      rd (blkAfter (.regWrite 0x18 0xFFFFFFFF) zero) 0x18 = 0x000000FF := by decide

/-- K2, K5 through REG_WRITE. -/
theorem test_regWrite_command :
    rd (blkAfter (.regWrite 0x00 0x000000FF) zero) 0x04 = 0x00000500 ∧
      rd (blkAfter (.regWrite 0x00 0x00000004) zero) 0x04 = 0x00000900 := by decide

/-- P1 after the first EMIT. -/
theorem test_emit_first_sample :
    rd (blkAfter .emit (blkAfter .start cfgP1)) 0x2C = 1 ∧
      rd (blkAfter .emit (blkAfter .start cfgP1)) 0x28 = 0x811E2D0B ∧
      rd (blkAfter .emit (blkAfter .start cfgP1)) 0x34 = 0x04050100 ∧
      rd (blkAfter .emit (blkAfter .start cfgP1)) 0x40 = 0 := by decide +kernel

/-- M20, M32: 30 fps at 10 samples a second, two samples, four frames; the run completes. -/
theorem test_emit_assembles_skipped_frames :
    rd (blkAfter .emit (blkAfter .emit (blkAfter .start { cfgP1 with sampleRate := 10, duration := 2 })))
        0x30 = 4 ∧
      rd (blkAfter .emit (blkAfter .emit (blkAfter .start { cfgP1 with sampleRate := 10, duration := 2 })))
        0x04 = 0x00000002 := by decide

/-! ### Operations of the modulator, by the spec's vectors -/

/-- B1 to B5: the two half-bit levels. -/
theorem test_bitLevel :
    (bitLevel .doc false false false, bitLevel .doc false false true) = (false, true) ∧
      (bitLevel .doc false true false, bitLevel .doc false true true) = (true, false) ∧
      (bitLevel .smpte false false false, bitLevel .smpte false false true) = (true, true) ∧
      (bitLevel .smpte false true false, bitLevel .smpte false true true) = (true, false) ∧
      (bitLevel .doc true false false, bitLevel .doc true false true) = (true, false) := by decide

/-- M19: 30 fps at 1000 samples a second. -/
theorem test_halfBitOf :
    (List.range 12).map (halfBitOf .fps30 1000) = [0, 4, 9, 14, 19, 24, 28, 33, 38, 43, 48, 52] := by
  decide

/-- M6: S(10) at 29.97 and 48000. -/
theorem test_samplesOfFrames : samplesOfFrames .fps2997 48000 10 = 16016 := by decide

/-! ### Witnesses: for every statement with hypotheses, values that meet them -/

/-- A machine whose next instant is given. -/
def facing (s : State) (x : Instant) : State := { s with pending := [x] }

/-- Program P1 before its START. -/
def ready : State := withBlk cfgP1

/-- Program P1 after its START. -/
def running : State := orElse (exec .start ready) ready

/-- Program P1 after its first EMIT. -/
def emitted : State := orElse (exec .emit running) running

/-- Program P2 after its TC_LOAD. -/
def clocked : State := orElse (exec .tcLoad (withBlk cfgP2)) State.reset

theorem witness_DecodeOfEncodeIsIdentity :
    (Instr.regWrite 0xFC 0xFFFFFFFF).wellFormed = true ∧ (Instr.regRead 0x00).wellFormed = true ∧
      (Instr.ubMerge 0xF).wellFormed = true ∧ Instr.emit.wellFormed = true := by decide

theorem witness_EncodeOfDecodeIsIdentity :
    decode (.bus 4 0x0FC 7) = .ok (.regRead 0xFC) ∧ decode (.bus 4 0x100 6) = .ok (.regWrite 0x00 6) ∧
      decode (.cmd 0x00000F05) = .ok (.ubMerge 0xF) := by decide

/-- The lowest and the highest reserved opcode, one in each format. -/
theorem witness_ReservedOpcodeRejected :
    (5 < bitsAt 0x00000006 0 8 ∧
        (facing ready (instant true (.access (.cmd 0x00000006)))).pending =
          instant true (.access (.cmd 0x00000006)) :: []) ∧
      5 < bitsAt 0xFFFFFFFF 0 8 ∧
        (facing running (instant false (.access (.bus 4 0x100 0xFFFFFFFF)))).pending =
          instant false (.access (.bus 4 0x100 0xFFFFFFFF)) :: [] := by decide

/-- One word for each of the three clauses. -/
theorem witness_ArgumentAndReservedBits :
    (bitsAt 0x80000000 0 8 ≤ 5 ∧ bitsAt 0x80000000 16 16 ≠ 0) ∧
      (bitsAt 0x00001005 0 8 = 5 ∧ bitsAt 0x00001005 12 4 ≠ 0) ∧
      (bitsAt 0x00000104 0 8 ≤ 5 ∧ bitsAt 0x00000104 0 8 ≠ 5 ∧ bitsAt 0x00000104 8 8 ≠ 0) ∧
      (facing ready (instant true (.access (.cmd 0x00001005)))).pending =
        instant true (.access (.cmd 0x00001005)) :: [] := by decide

theorem witness_CommandFormatsAgree :
    decode (.cmd 0x00000000) = .ok .nop ∧ decode (.cmd 0x00000F05) = .ok (.ubMerge 0xF) := by decide

theorem witness_StepRunsDecodedInstruction :
    (facing ready (instant true (.access (.cmd 0x00000001)))).pending =
        instant true (.access (.cmd 0x00000001)) :: [] ∧
      decode (.cmd 0x00000001) = .ok .start := by decide

theorem witness_EngineTurnIsEmit :
    (facing running (instant true .engine)).pending = instant true .engine :: [] ∧
      (facing running (instant false .idle)).pending = instant false .idle :: [] ∧
      running.pending = [] := by decide

/-- A narrow access and a misaligned one. -/
theorem witness_OnlyNarrowOrMisalignedRefused :
    ((facing ready (instant true (.access (.bus 2 0x008 0)))).pending =
        instant true (.access (.bus 2 0x008 0)) :: [] ∧ (2 : Nat) ≠ 4) ∧
      ((facing ready (instant true (.access (.bus 4 0x1FF 0)))).pending =
        instant true (.access (.bus 4 0x1FF 0)) :: [] ∧ (0x1FF : BitVec 9).toNat % 4 ≠ 0) := by decide

theorem witness_ResetStepSetsEveryElement :
    (facing running { reset := true, sinkReady := false, request := .engine }).pending =
      { reset := true, sinkReady := false, request := .engine } :: [] := by decide

theorem witness_ResetLeavesTheAgents :
    (facing emitted { reset := true, sinkReady := true, request := .idle }).pending =
      { reset := true, sinkReady := true, request := .idle } :: [] := by decide

theorem witness_CommandsRightAfterReset : State.reset.blk = Block.atReset State.reset.params := by decide

/-- Every offset a clause names, and both ends of the reserved range. -/
theorem witness_ReadConfigurationRegisters :
    ∀ off ∈ [(0x00 : Offset), 0x08, 0x0C, 0x10, 0x14, 0x18, 0x1C, 0x20, 0x24, 0x48, 0xFC],
      off.toNat % 4 = 0 := by decide

theorem witness_reserved_range : 0x48 ≤ (0x48 : Offset).toNat ∧ 0x48 ≤ (0xFC : Offset).toNat := by decide

theorem witness_ReadStatusAndResultRegisters :
    (∀ off ∈ [(0x04 : Offset), 0x28, 0x2C, 0x30, 0x34, 0x38, 0x3C, 0x40, 0x44], off.toNat % 4 = 0) ∧
      clocked.blk.clk.h < 32 ∧ clocked.blk.clk.m < 64 ∧ clocked.blk.clk.s < 64 ∧
      clocked.blk.clk.f < 64 := by decide

theorem witness_WriteStoresMaskedWord :
    ∀ off ∈ [(0x04 : Offset), 0x10, 0x28, 0x44, 0x48, 0xFC],
      off.toNat % 4 = 0 ∧ off ∉ [(0x00 : Offset), 0x08, 0x0C, 0x14, 0x18, 0x1C, 0x20, 0x24] := by decide

theorem witness_ReservedAndReadOnlySpace :
    ((0xFC : Offset).toNat % 4 = 0 ∧ 0x48 ≤ (0xFC : Offset).toNat) ∧
      (0x10 : Offset) ∈ [(0x04 : Offset), 0x10, 0x28, 0x2C, 0x30, 0x34, 0x38, 0x3C, 0x40, 0x44] ∧
      (0x00000037 : Word) &&& 0x00000037 = 0xFFFFFFFF &&& 0x00000037 := by decide

theorem witness_ReadsHaveNoSideEffect :
    exec (.regRead 0x04) running = .next (running.pushReply 1) ∧
      exec (.regWrite 0x24 9) running =
        .next (running.setBlk { running.blk with duration := 9 }) := ⟨rfl, rfl⟩

theorem witness_ReadAfterWriteGivesMaskedWord :
    ((0x08 : Offset), (0x00000037 : Word)) ∈ [((0x08 : Offset), (0x00000037 : Word)),
      (0x0C, 0x1F3F3F3F), (0x14, 0xFFFFFFFF), (0x18, 0x000000FF), (0x1C, 0x0000010F),
      (0x20, 0xFFFFFFFF), (0x24, 0xFFFFFFFF)] := by decide

/-- A rejected word and an accepted one that is neither START nor TC_LOAD. -/
theorem witness_CommandAcceptance :
    acceptance 0x00000001 running.blk.busy running.blk.clkValid = 1 ∧
      acceptance 0x00000004 clocked.blk.busy clocked.blk.clkValid = 0 ∧ bitsAt 0x00000004 0 8 ≠ 1 ∧
      bitsAt 0x00000004 0 8 ≠ 2 := by decide

theorem witness_NopClearsRejection :
    (bitsAt 0x00000100 0 8 = 0 ∧ bitsAt 0x00000100 8 24 ≠ 0) ∧
      bitsAt 0x80000000 0 8 = 0 ∧ bitsAt 0x80000000 8 24 ≠ 0 := by decide

theorem witness_UbMergeReplacesSuppliedGroups :
    (bitsAt 0x00001005 0 8 = 5 ∧ bitsAt 0x00001005 12 4 ≠ 0) ∧
      bitsAt 0x00010005 0 8 = 5 ∧ bitsAt 0x00010005 16 16 ≠ 0 := by decide

/-- A merge while a run is in progress. -/
def staged : State :=
  facing { running with blk := { running.blk with ubStage := 0xAABBCCDD } }
    (instant true (.access (.cmd 0x00000F05)))

theorem witness_UbChangesOnlyByMergeOrReset :
    step staged = .next (orElse (step staged) staged) ∧
      (orElse (step staged) staged).blk.ub ≠ staged.blk.ub := ⟨rfl, by decide⟩

theorem witness_TcLoadResult :
    running.blk.busy = true ∧
      (zero.busy = false ∧ validation State.reset.params false { zero with cfg := 0x11 } = 2) ∧
      (withBlk cfgP2).blk.busy = false ∧ validation (withBlk cfgP2).params false cfgP2 = 0 := by decide

theorem witness_TcAdvanceResult :
    running.blk.busy = true ∧ (ready.blk.busy = false ∧ ready.blk.clkValid = false) ∧
      clocked.blk.busy = false ∧ clocked.blk.clkValid = true := by decide

theorem witness_AssembleResult :
    running.blk.busy = true ∧ (ready.blk.busy = false ∧ ready.blk.clkValid = false) ∧
      clocked.blk.busy = false ∧ clocked.blk.clkValid = true := by decide

/-- A duration that is not 0, and the duration 0. -/
theorem witness_StartBeginsRun :
    (ready.blk.busy = false ∧ validation ready.params true ready.blk = 0) ∧
      validation ready.params true { cfgP1 with duration := 0 } = 0 := by decide

theorem witness_StartFailsOrIsRejected :
    (State.reset.blk.busy = false ∧ validation State.reset.params true State.reset.blk = 3) ∧
      running.blk.busy = true := by decide

/-- A TC_LOAD that passes after an error. -/
def erring : State :=
  facing (withBlk { cfgP2 with errKind := 1, errCode := 8 }) (instant true (.access (.cmd 0x00000002)))

theorem witness_ErrorFieldsStayUntilValidation :
    step erring = .next (orElse (step erring) erring) ∧
      (orElse (step erring) erring).blk.errCode ≠ erring.blk.errCode := ⟨rfl, by decide⟩

theorem witness_AdvanceKeepsValidity :
    Rate.fps5994.dfAllowed = true ∧
      Timecode.valid Config.specParams .fps5994 true ⟨23, 59, 59, 59⟩ = true := by decide

theorem witness_NonDropNeverSkips :
    Timecode.valid Config.specParams .fps2997 false ⟨0, 0, 59, 29⟩ = true := by decide

/-- Both clauses: into minute 1, and into minute 10. -/
theorem witness_DropFrameSkipsAtMinuteChange :
    (Timecode.valid Config.specParams .fps2997 true ⟨0, 0, 59, 29⟩ = true ∧ (0 + 1) % 10 ≠ 0) ∧
      Timecode.valid Config.specParams .fps2997 true ⟨0, 9, 59, 29⟩ = true ∧ (9 + 1) % 10 = 0 ∧
      Rate.fps2997.dfAllowed = true := by decide

theorem witness_AdvanceCascades :
    Timecode.valid Config.specParams .fps24 false ⟨23, 59, 58, 23⟩ = true ∧
      Timecode.valid Config.specParams .fps2997 true ⟨23, 58, 59, 29⟩ = true ∧
      Timecode.valid Config.specParams .fps60 false ⟨22, 59, 59, 59⟩ = true ∧
      Timecode.valid Config.specParams .fps5994 true ⟨23, 59, 59, 59⟩ = true ∧
      59 + 1 = Rate.fps5994.nominal := by decide

theorem witness_ClockPeriodIsOneDay :
    Timecode.valid Config.specParams .fps2997 true ⟨0, 1, 0, 2⟩ = true ∧
      0 < 1 ∧ 1 < dayFrames Config.specParams .fps2997 true ∧
      2589407 < dayFrames Config.specParams .fps2997 true := by decide

theorem witness_SyncWordIsFinalSixteenBits : 0 < 16 ∧ 15 < 16 := by decide

/-- Both positions of the polarity-correction bit. -/
theorem witness_PolarityCorrectionMakesCountsEven :
    (∃ F : FrameBits, F = assembleFrame ⟨12, 34, 56, 24⟩ .fps25 false false 0 0 ∧
        59 = if Rate.fps25 = .fps25 then 59 else 27) ∧
      ∃ F : FrameBits, F = assembleFrame ⟨23, 59, 59, 23⟩ .fps24 false false 0 0 ∧
        27 = if Rate.fps24 = .fps25 then 59 else 27 :=
  ⟨⟨_, rfl, rfl⟩, ⟨_, rfl, rfl⟩⟩

theorem witness_DigitsDecodeToTimecode :
    ∃ F : FrameBits, F = assembleFrame ⟨23, 59, 59, 59⟩ .fps60 false true 0 0 ∧
      Timecode.valid Config.specParams .fps60 false ⟨23, 59, 59, 59⟩ = true ∧
      Timecode.valid Config.specParams .fps60 false ⟨0, 0, 0, 39⟩ = true :=
  ⟨_, rfl, by decide, by decide⟩

theorem witness_UserBitsPlacement :
    ∃ F : FrameBits, F = assembleFrame ⟨0, 0, 0, 0⟩ .fps30 false false 0x87654321 0 ∧
      (1 ≤ 1 ∧ 1 ≤ 8 ∧ 0 < 4) ∧ (1 ≤ 8 ∧ 8 ≤ 8 ∧ 3 < 4) := ⟨_, rfl, by decide, by decide⟩

theorem witness_Field1OverridesFirstNibble :
    (clocked.blk.busy = false ∧ clocked.blk.clkValid = true ∧
        exec .assemble clocked = .next (orElse (exec .assemble clocked) clocked)) ∧
      exec .start { clocked with blk := { clocked.blk with sampleRate := 48000 } } =
        .next (orElse (exec .start { clocked with blk := { clocked.blk with sampleRate := 48000 } })
          clocked) ∧
      validation clocked.params true { clocked.blk with sampleRate := 48000 } = 0 :=
  ⟨⟨by decide, by decide, rfl⟩, rfl, by decide⟩

theorem witness_FrameFlagsByRate :
    ∃ F : FrameBits, F = assembleFrame ⟨0, 0, 0, 0⟩ .fps25 false true 0 0xFF ∧
      (0xFF : BitVec 8).toNat % 8 = (0x07 : BitVec 8).toNat % 8 := ⟨_, rfl, by decide⟩

/-- The frame of vector A10, which holds the pattern at bit 2. -/
theorem witness_SyncPatternInDataBits :
    Rate.fps5994.dfAllowed = true ∧
      Timecode.valid Config.specParams .fps5994 true ⟨0, 0, 2, 30⟩ = true ∧ 2 < 64 ∧
      syncAt (assembleFrame ⟨0, 0, 2, 30⟩ .fps5994 true true 0x000000FF 0) 2 := by
  refine ⟨by decide, by decide, by decide, ?_⟩
  unfold syncAt
  decide +kernel

theorem witness_HalfBitLevels : 0 < 80 ∧ 79 < 80 := by decide

theorem witness_TransitionsCarryTheBits : 0 < 80 ∧ 79 < 80 := by decide

theorem witness_GridBoundaries : 0 < 1 ∧ 0 < 48000 ∧ 0 < 4294967295 := by decide

theorem witness_AccumulatorComputesGrid : 0 < 1 ∧ 0 < 48000 ∧ 0 < 4294967295 := by decide

/-- Enabled; not enabled for want of a run; not enabled for want of a ready sink. -/
theorem witness_EmitProducesOneSample :
    (running.blk.busy = true ∧ running.sink.ready = true) ∧ ready.blk.busy = false ∧
      { running with sink := { running.sink with ready := false } }.sink.ready = false := by decide

/-- The last sample of a run of one. -/
def lastOne : State := withBlk (blkAfter .start { cfgP1 with duration := 1 })

theorem witness_RunEndsOnlyByLastSampleOrReset :
    (lastOne.blk.busy = true ∧ lastOne.sink.ready = true ∧
        lastOne.blk.samples + 1 = lastOne.blk.runN.toNat) ∧
    step (facing lastOne engineInstant) =
        .next (orElse (step (facing lastOne engineInstant)) lastOne) ∧
      (facing lastOne engineInstant).blk.busy = true ∧
      (orElse (step (facing lastOne engineInstant)) lastOne).blk.busy = false :=
  ⟨⟨by decide, by decide, by decide⟩, rfl, by decide, by decide⟩

theorem witness_RunEmitsSampleLevels :
    ready.blk.busy = false ∧ exec .start ready = .next running ∧ running.blk.busy = true ∧
      0 ≤ running.blk.runN.toNat ∧ 48000 ≤ running.blk.runN.toNat :=
  ⟨by decide, rfl, by decide, by decide, by decide⟩

theorem witness_RunEndState :
    ready.blk.busy = false ∧ exec .start ready = .next running ∧ running.blk.busy = true :=
  ⟨by decide, rfl, by decide⟩

/-- The configuration of P1 with a history: another frame, clock and record. -/
def otherHistory : State :=
  { ready with
    blk := { cfgP1 with frame := 0x5, clkValid := true, samples := 7, done := true }
    output := [true] }

/-- The configuration of P1 with another `FIELD1.VALUE`, which its enable of 0 leaves out. -/
def otherField1 : State := withBlk { cfgP1 with field1 := 0x5 }

/-- Equal snapshots from unequal registers; and equal registers with unequal histories. -/
theorem witness_RunIsFunctionOfConfiguration :
    (ready.blk.busy = false ∧ otherField1.blk.busy = false ∧ exec .start ready = .next running ∧
      exec .start otherField1 = .next (orElse (exec .start otherField1) otherField1) ∧
      running.blk.errKind = 0 ∧ (orElse (exec .start otherField1) otherField1).blk.errKind = 0 ∧
      running.blk.snapshot running.params =
        (orElse (exec .start otherField1) otherField1).blk.snapshot
          (orElse (exec .start otherField1) otherField1).params ∧
      ready.blk.field1 ≠ otherField1.blk.field1) ∧
    ready.params = otherHistory.params ∧ ready.blk.cfg = otherHistory.blk.cfg ∧
      ready.blk.tcStart = otherHistory.blk.tcStart ∧ ready.blk.ub = otherHistory.blk.ub ∧
      ready.blk.field1 = otherHistory.blk.field1 ∧ ready.blk.bgf = otherHistory.blk.bgf ∧
      ready.blk.sampleRate = otherHistory.blk.sampleRate ∧
      ready.blk.duration = otherHistory.blk.duration ∧ otherHistory.blk.busy = false ∧
      exec .start otherHistory = .next (orElse (exec .start otherHistory) otherHistory) :=
  ⟨⟨rfl, rfl, rfl, rfl, by decide, by decide, by decide, by decide⟩,
    rfl, rfl, rfl, rfl, rfl, rfl, rfl, rfl, rfl, rfl⟩

/-- A write of another sample rate in the middle of a run. -/
theorem witness_WritesCommuteWithEmit :
    (0x20 : Offset) ≠ 0x00 ∧
      exec (.regWrite 0x20 1) running =
        .next (running.setBlk { running.blk with sampleRate := 1 }) ∧
      exec .emit (running.setBlk { running.blk with sampleRate := 1 }) =
        .next (running.setBlk { running.blk with sampleRate := 1 }).emitSample ∧
      exec .emit running = .next emitted ∧
      exec (.regWrite 0x20 1) emitted =
        .next (emitted.setBlk { emitted.blk with sampleRate := 1 }) :=
  ⟨by decide, rfl, rfl, rfl, rfl⟩

/-- The engine's turn, which delivers a sample; and a reset, which delivers none. -/
theorem witness_SamplesNeverDroppedOrRepeated :
    (step (facing running engineInstant) =
        .next (orElse (step (facing running engineInstant)) running) ∧
      (orElse (step (facing running engineInstant)) running).output = [false]) ∧
    step (facing emitted { reset := true, sinkReady := true, request := .engine }) =
        .next (orElse (step (facing emitted
          { reset := true, sinkReady := true, request := .engine })) emitted) ∧
      emitted.output = [false] :=
  ⟨⟨rfl, by decide +kernel⟩, rfl, by decide +kernel⟩

theorem witness_StartAgainstLastEmit :
    lastOne.blk.busy = true ∧ lastOne.sink.ready = true ∧
      lastOne.blk.samples + 1 = lastOne.blk.runN.toNat ∧
      exec .emit lastOne = .next (orElse (exec .emit lastOne) lastOne) ∧
      exec .start (orElse (exec .emit lastOne) lastOne) =
        .next (orElse (exec .start (orElse (exec .emit lastOne) lastOne)) lastOne) :=
  ⟨by decide, by decide, by decide, rfl, rfl⟩

/-- A run in progress meets the invariant, with an EMIT ahead. -/
theorem witness_StepKeepsInvariant :
    (facing running engineInstant).Inv ∧
      step (facing running engineInstant) =
        .next (orElse (step (facing running engineInstant)) running) := by
  refine ⟨⟨?_, ?_, .inl ⟨rfl, rfl⟩, ?_, ?_, ?_, .inl rfl, List.nil_suffix⟩, rfl⟩
  · unfold Block.ReservedZero; decide
  · unfold Block.ClockOk; decide
  · unfold Block.RejectOk; decide
  · unfold Block.RunOk; decide
  · unfold Block.PolarityOk; decide

theorem witness_PseudoInstructionsSetRegisters : 31 < 32 ∧ 63 < 64 ∧ 0 < 64 := by decide

end Sys2Proof.Tests
end

section
/-!
PROOF. The steps of the machine's agents (spec/00_scope.md R14): what the step does at an instant
with the reset input low, and where no instant is left.
-/

namespace Sys2Proof.Machine

open Sys2Proof.Claims

/-- Both spellings of the state once an instant is reached: the model's and the statements'. -/
@[simp] theorem State.reach_instant (s : State) (ready : Bool) (req : Request)
    (rest : List Instant) : s.reach (instant ready req) rest = reached s ready rest :=
  rfl

/-- With the reset input low, the agent whose turn it is performs its step (R14). -/
theorem step_instant {s : State} {ready : Bool} {req : Request} {rest : List Instant}
    (h : s.pending = instant ready req :: rest) :
    step s = serve req (reached s ready rest) := by
  have hlow : ¬ (instant ready req).reset = true := Bool.false_ne_true
  rw [step, h, ← State.reach_instant s ready req rest]
  exact if_neg hlow

/-- Where no instant is left the step changes nothing (R399; log entry 3). -/
theorem step_pending_nil {s : State} (h : s.pending = []) : step s = .next s := by
  rw [step, h]

/-- The engine's turn is one EMIT (R14, R345). -/
@[simp] theorem serve_engine (s : State) : serve .engine s = exec .emit s :=
  rfl

/-- Where no agent asks to step, nothing changes. -/
@[simp] theorem serve_idle (s : State) : serve .idle s = .next s :=
  rfl

/-- Settles O7: with reset low the step serves the access, and an access that decodes is served by
executing what it decodes to. -/
theorem stepRunsDecodedInstruction : Obligations.StepRunsDecodedInstruction := by
  intro s a i ready rest hpending hdecode
  calc step s = serve (.access a) (reached s ready rest) := step_instant hpending
    _ = exec i (reached s ready rest) := serve_access hdecode _

/-- Settles O8, by what the step serves in each of the three cases. -/
theorem engineTurnIsEmit : Obligations.EngineTurnIsEmit := by
  intro s ready rest
  refine ⟨fun hengine => ?_, fun hidle => ?_, step_pending_nil⟩
  · rw [step_instant hengine, serve_engine]
  · rw [step_instant hidle, serve_idle]

end Sys2Proof.Machine
end

section
/-!
PROOF. The state (spec/10_state.md): what keeps `UB` (R34), and the state a reset leaves (R63).
-/

namespace Sys2Proof.Machine

open Sys2Proof.Claims

/-! ### What keeps `UB` -/

/-- START takes a snapshot of `UB` and does not write it (R341). -/
@[simp] theorem Block.start_ub (p : Params) (b : Block) : (b.start p).ub = b.ub := by
  unfold Block.start
  split
  · simp
  · simp [Block.beginRun]

@[simp] theorem Block.tcLoad_ub (p : Params) (b : Block) : (b.tcLoad p).ub = b.ub := by
  unfold Block.tcLoad
  split <;> simp

@[simp] theorem Block.tcAdvance_ub (p : Params) (b : Block) : (b.tcAdvance p).ub = b.ub := rfl

@[simp] theorem Block.assemble_ub (b : Block) : b.assemble.ub = b.ub := rfl

/-- `UB` is not among the registers a write stores (R84, R93). -/
@[simp] theorem Block.writeWord_ub (b : Block) (off : Offset) (v : Word) :
    (b.writeWord off v).ub = b.ub := by
  rw [Block.writeWord_frame]

/-- A sample leaves `UB`: the run's payload is its snapshot (R345). -/
@[simp] theorem State.emitSample_ub (s : State) : s.emitSample.blk.ub = s.blk.ub := by
  simp only [State.emitSample, Block.assembleThrough, State.emitLevel_fields, State.setBlk_fields,
    Block.countSample_fields]
  rw [Block.nextFrames_frame]

theorem execEmit_ub {s t : State} (h : exec .emit s = .next t) : t.blk.ub = s.blk.ub := by
  obtain ⟨-, e⟩ | ⟨-, -, e⟩ := execEmit_cases s
  · rw [next_injective (h.symm.trans e)]
  · rw [next_injective (h.symm.trans e), State.emitSample_ub]

/-- The opcode field of a command word, by number (R111). -/
theorem bitsAt_commandWord_op (op arg : BitVec 8) :
    bitsAt (commandWord op arg) 0 8 = op.toNat := by
  have := op.isLt
  rw [bitsAt, commandWord_toNat]
  omega

/-- A command that changes `UB` is a UB_MERGE (R175, R241). -/
theorem Block.command_ub {p : Params} {v : Word} {b : Block} (h : (b.command p v).ub ≠ b.ub) :
    bitsAt v 0 8 = 5 := by
  obtain ⟨_, -, -, e⟩ | ⟨-, e⟩ | ⟨-, -, e⟩ | ⟨-, -, e⟩ | ⟨-, -, -, e⟩ | ⟨-, -, -, e⟩ | ⟨m, rfl, -⟩ :=
    Block.command_cases p v b
  pick_goal 7
  · exact bitsAt_commandWord_op _ _
  all_goals exact absurd (by simp [e]) h

/-- Settles O22, by the cases of a step: of those with the reset input low, only a command can
write `UB`. -/
theorem ubChangesOnlyByMergeOrReset : Obligations.UbChangesOnlyByMergeOrReset := by
  intro s t hstep hub
  obtain ⟨-, rfl⟩ | ⟨x, rest, hpending, hx⟩ := step_cases hstep
  · exact absurd rfl hub
  refine ⟨x, rest, hpending, ?_⟩
  obtain ⟨hreset, -⟩ | ⟨-, ⟨-, rfl⟩ | ⟨-, hemit⟩ | ⟨_, rfl⟩ | ⟨v, hrequest, rfl⟩ | ⟨off, v, -, rfl⟩⟩ := hx
  · exact .inl hreset
  · exact absurd (by simp) hub
  · exact absurd (by simp [execEmit_ub hemit]) hub
  · exact absurd (by simp) hub
  · exact .inr ⟨v, Block.command_ub (by simpa using hub), hrequest⟩
  · exact absurd (by simp) hub

/-! ### The state a reset leaves -/

/-- Every bit of the frame register is 0 at reset, and 80 is even (R63, R267). -/
theorem Block.atReset_polarityOk (p : Params) : (Block.atReset p).PolarityOk p := by
  have heven : zerosBelow 0 80 % 2 = 0 := by decide
  exact ⟨rfl, heven⟩

/-- No run is in progress at reset: `w.S` and `w.N` are both 0 (R63). -/
theorem Block.atReset_runOk (p : Params) : (Block.atReset p).RunOk := by
  simp [Block.RunOk, Block.atReset]

/-- No clock is loaded at reset, and drop mode is off (R63). -/
theorem Block.atReset_clockOk (p : Params) : (Block.atReset p).ClockOk p := by
  simp [Block.ClockOk, Block.atReset]

theorem Block.atReset_rejectOk (p : Params) : (Block.atReset p).RejectOk := by
  simp [Block.RejectOk, Block.atReset]

theorem Block.atReset_reservedZero (p : Params) : (Block.atReset p).ReservedZero := by
  simp [Block.ReservedZero, Block.atReset]

/-- A block at its reset values and an empty record of levels meet the invariant, whatever the sink
holds and whatever is still to come (R63, R430). -/
theorem State.inv_of_atReset {s : State} (hblk : s.blk = Block.atReset s.params)
    (houtput : s.output = []) : s.Inv := by
  rw [State.Inv, State.OutputOk, hblk, houtput]
  exact ⟨Block.atReset_reservedZero _, Block.atReset_clockOk _, .inl ⟨rfl, rfl⟩,
    Block.atReset_rejectOk _, Block.atReset_runOk _, Block.atReset_polarityOk _, .inl rfl,
    List.nil_suffix⟩

/-- Settles O55: both states have the block at its reset values and no level recorded. -/
theorem resetMeetsInvariant : Obligations.ResetMeetsInvariant :=
  ⟨State.inv_of_atReset rfl rfl, fun s => State.inv_of_atReset (s := s.takeReset) rfl rfl⟩

end Sys2Proof.Machine
end

section
/-!
PROOF. Host access to the register space (spec/20_memory.md): which accesses have a step (R81), what
a read and a write leave (R84, R85), that neither disturbs a run (R90), and which step delivers a
sample (R91).
-/

namespace Sys2Proof.Machine

open Sys2Proof.Claims

/-! ### Which accesses have a step -/

/-- An instant with the reset input low is its other two parts. -/
theorem eq_instant {x : Instant} (h : x.reset = false) : x = instant x.sinkReady x.request := by
  rw [instant, ← h]

/-- An instant with the reset input asserted is a reset, whoever asks to step (R430). -/
theorem step_reset {s : State} {x : Instant} {rest : List Instant} (hp : s.pending = x :: rest)
    (hr : x.reset = true) : step s = .next (s.reach x rest).takeReset := by
  rw [step, hp]
  exact if_pos hr

/-- An access in format BUS has a step exactly when it is of whole words and aligned (R81). -/
theorem serve_bus_next_iff (bytes : Nat) (desc : BitVec 9) (data : Word) (s : State) :
    (∃ t, serve (.access (.bus bytes desc data)) s = .next t) ↔ bytes = 4 ∧ desc.toNat % 4 = 0 := by
  cases hd : decodeBus bytes desc data with
  | ok i =>
    obtain ⟨hbytes, hw, hi⟩ := decodeBus_ok hd
    have haligned : Offset.aligned (descOffset desc) = true := by
      obtain ⟨-, rfl⟩ | ⟨-, rfl⟩ := hi <;> exact hw
    rw [aligned_iff, descOffset_toNat] at haligned
    rw [serve_access (a := .bus bytes desc data) hd]
    exact iff_of_true (exec_wellFormed hw s) ⟨hbytes, by omega⟩
  | error e =>
    have hserve : serve (.access (.bus bytes desc data)) s = s.onDecodeError e := by
      simp only [serve, decode, hd]
    rw [hserve]
    obtain ⟨rfl, hbytes⟩ | ⟨rfl, hdesc⟩ := decodeBus_error hd
    · exact iff_of_false (fun ⟨_, h⟩ => nomatch h) (fun h => hbytes h.1)
    · exact iff_of_false (fun ⟨_, h⟩ => nomatch h) (fun h => hdesc h.2)

/-- Every request has a step but an access in format BUS that R81 refuses. -/
theorem serve_next_iff (req : Request) (s : State) :
    (∃ t, serve req s = .next t) ↔
      ¬ ∃ bytes desc data, req = .access (.bus bytes desc data) ∧ (bytes ≠ 4 ∨ desc.toNat % 4 ≠ 0) := by
  match req with
  | .idle | .engine => exact iff_of_true ⟨_, rfl⟩ (fun ⟨_, _, _, h, _⟩ => nomatch h)
  | .access (.cmd v) => exact iff_of_true ⟨_, serve_command v s⟩ (fun ⟨_, _, _, h, _⟩ => nomatch h)
  | .access (.bus bytes desc data) =>
    rw [serve_bus_next_iff]
    constructor
    · rintro ⟨hbytes, hdesc⟩ ⟨_, _, _, ⟨⟩, hne | hne⟩
      · exact hne hbytes
      · exact hne hdesc
    · intro h
      by_contra hne
      exact h ⟨bytes, desc, data, rfl, not_and_or.mp hne⟩

/-- Settles O9: with reset low the step is the request's, and of the requests only a narrow or
misaligned access has none. -/
theorem onlyNarrowOrMisalignedRefused : Obligations.OnlyNarrowOrMisalignedRefused := by
  intro s
  cases hp : s.pending with
  | nil => exact iff_of_true ⟨_, step_pending_nil hp⟩ (fun ⟨_, _, _, _, _, h, _⟩ => nomatch h)
  | cons x rest =>
    cases hr : x.reset with
    | true =>
      refine iff_of_true ⟨_, step_reset hp hr⟩ ?_
      rintro ⟨ready, rest', bytes, desc, data, h, -⟩
      obtain ⟨rfl, -⟩ := List.cons.inj h
      exact Bool.false_ne_true hr
    | false =>
      rw [eq_instant hr] at hp ⊢
      rw [step_instant hp, serve_next_iff, not_iff_not]
      constructor
      · rintro ⟨bytes, desc, data, hreq, hbad⟩
        exact ⟨_, _, bytes, desc, data, by rw [hreq], hbad⟩
      · rintro ⟨ready, rest', bytes, desc, data, h, hbad⟩
        exact ⟨bytes, desc, data, congrArg Instant.request (List.cons.inj h).1, hbad⟩

/-! ### Reads and writes of a register -/

@[simp] theorem State.setBlk_self (s : State) : s.setBlk s.blk = s := rfl

/-- A read at an aligned offset returns the word there to the host (R170). -/
theorem exec_regRead (s : State) {off : Offset} (h : off.toNat % 4 = 0) :
    exec (.regRead off) s = .next (s.pushReply (s.blk.readWord off)) := by
  rw [exec, execRegRead, if_pos ((aligned_iff off).mpr h)]

/-- A write at an aligned offset but that of `CMD` is a write of the block's word there (R172). -/
theorem exec_regWrite (s : State) {off : Offset} (v : Word) (h : off.toNat % 4 = 0)
    (h0 : off ≠ 0x00) : exec (.regWrite off v) s = .next (s.setBlk (s.blk.writeWord off v)) := by
  rw [exec, execRegWrite, if_pos ((aligned_iff off).mpr h), if_neg h0]

/-- A write of a register but `CMD`. -/
theorem exec_regWrite_reg (s : State) {r : Reg} (hr : r ≠ .cmd) (v : Word) :
    exec (.regWrite r.offset v) s = .next (s.setBlk (s.blk.writeReg v r)) := by
  have h0 : r.offset ≠ 0x00 := fun h => hr (Reg.offset_injective (r' := .cmd) h)
  rw [exec_regWrite s v ((aligned_iff _).mp r.aligned_offset) h0, Block.writeWord_offset]

/-- A read that completes returned the word at an aligned offset. -/
theorem exec_regRead_next {s t : State} {off : Offset} (h : exec (.regRead off) s = .next t) :
    t = s.pushReply (s.blk.readWord off) := by
  by_cases ha : Offset.aligned off = true
  · rw [exec_regRead s ((aligned_iff off).mp ha)] at h
    exact (next_injective h).symm
  · rw [exec, execRegRead, if_neg ha] at h
    contradiction

/-- A write that completes wrote at an aligned offset. -/
theorem exec_regWrite_next {s t : State} {off : Offset} {v : Word} (h0 : off ≠ 0x00)
    (h : exec (.regWrite off v) s = .next t) :
    off.toNat % 4 = 0 ∧ t = s.setBlk (s.blk.writeWord off v) := by
  by_cases ha : Offset.aligned off = true
  · have ha' := (aligned_iff off).mp ha
    rw [exec_regWrite s v ha' h0] at h
    exact ⟨ha', (next_injective h).symm⟩
  · rw [exec, execRegWrite, if_neg ha] at h
    contradiction

/-! ### The masks of the register map -/

/-- A register without a write mask is not written (R84). -/
theorem Block.writeReg_of_wmask_none (b : Block) (v : Word) {r : Reg} (h : r.wmask = none) :
    b.writeReg v r = b := by
  cases r with
  | cfg | tcStart | ubStage | bgf | field1 | sampleRate | duration => contradiction
  | _ => rfl

/-- The bits outside a register's write mask read 0 (R84). -/
theorem Block.readReg_and_not_wmask (b : Block) {r : Reg} {mask : Word} (h : r.wmask = some mask) :
    b.readReg r &&& ~~~mask = 0 := by
  cases r with
  | cfg | tcStart | ubStage | bgf | field1 | sampleRate | duration =>
    obtain rfl := Option.some.inj h
    simp [Block.readReg, BitVec.and_assoc]
  | _ => contradiction

/-- A write looks only at the bits of the write mask (R84). -/
theorem Block.writeReg_congr (b : Block) {r : Reg} {mask v w : Word} (h : r.wmask = some mask)
    (hvw : v &&& mask = w &&& mask) : b.writeReg v r = b.writeReg w r := by
  cases r with
  | cfg | tcStart | ubStage | bgf | field1 | sampleRate | duration =>
    obtain rfl := Option.some.inj h
    rw [Block.writeReg, hvw, Block.writeReg]
  | _ => contradiction

theorem Reg.ne_cmd_of_wmask {r : Reg} {mask : Word} (h : r.wmask = some mask) : r ≠ .cmd := by
  rintro rfl
  contradiction

/-- The offsets of the read-only registers, in the order of the map (R93). -/
theorem readOnly_offsets :
    (Reg.all.filter fun r => r.wmask.isNone && r != .cmd).map Reg.offset =
      [0x04, 0x10, 0x28, 0x2C, 0x30, 0x34, 0x38, 0x3C, 0x40, 0x44] := by
  decide

/-- The offsets and masks of the read/write registers, in the order of the map (R93). -/
theorem readWrite_masks :
    Reg.all.filterMap (fun r => r.wmask.map (Prod.mk r.offset)) =
      [(0x08, 0x00000037), (0x0C, 0x1F3F3F3F), (0x14, 0xFFFFFFFF), (0x18, 0x000000FF),
        (0x1C, 0x0000010F), (0x20, 0xFFFFFFFF), (0x24, 0xFFFFFFFF)] := by
  decide

/-- Settles O16, from the register map and the masks of its registers. -/
theorem reservedAndReadOnlySpace : Obligations.ReservedAndReadOnlySpace := by
  refine ⟨fun s off v haligned hreserved => ⟨?_, ?_⟩, fun s => rfl, fun s off v hoff => ?_,
    fun s off mask hmask => ?_⟩
  · rw [exec_regRead s haligned, Block.readWord_reserved _ hreserved]
    rfl
  · have h0 : off ≠ 0x00 := by
      rintro rfl
      exact absurd hreserved (by decide)
    rw [exec_regWrite s v haligned h0, Block.writeWord_reserved _ v hreserved, State.setBlk_self]
  · rw [← readOnly_offsets] at hoff
    obtain ⟨r, hr, rfl⟩ := List.mem_map.mp hoff
    obtain ⟨hnone, hcmd⟩ : r.wmask = none ∧ r ≠ .cmd := by simpa using (List.mem_filter.mp hr).2
    rw [exec_regWrite_reg s hcmd, Block.writeReg_of_wmask_none _ v hnone, State.setBlk_self]
  · rw [← readWrite_masks] at hmask
    obtain ⟨r, -, hr⟩ := List.mem_filterMap.mp hmask
    obtain ⟨_, hsome, hpair⟩ := Option.map_eq_some_iff.mp hr
    obtain ⟨rfl, rfl⟩ := Prod.mk.inj hpair
    refine ⟨?_, fun v w hvw => ?_⟩
    · rw [Block.readWord_offset, Block.readReg_and_not_wmask _ hsome]
    · have hcmd := Reg.ne_cmd_of_wmask hsome
      rw [exec_regWrite_reg s hcmd, exec_regWrite_reg s hcmd, Block.writeReg_congr _ hsome hvw]

/-! ### A write touches one register -/

/-- A second write of the same word stores it again (R85). -/
theorem Block.writeWord_idem (b : Block) (off : Offset) (v : Word) :
    (b.writeWord off v).writeWord off v = b.writeWord off v := by
  unfold Block.writeWord
  split
  · rename_i r _
    cases r <;> rfl
  · rfl

/-- A write changes the view of no other register: each pair of registers is the same one, or the
field written is not the field read (R85). -/
theorem Block.readReg_writeReg_ne (b : Block) (v : Word) {r r' : Reg} (h : r' ≠ r) :
    (b.writeReg v r).readReg r' = b.readReg r' := by
  cases r with
  | cfg | tcStart | ubStage | bgf | field1 | sampleRate | duration =>
    cases r' <;> first | contradiction | rfl
  | _ => rfl

/-- A write changes the word read at no other offset (R85). -/
theorem Block.readWord_writeWord_ne (b : Block) (v : Word) {off off' : Offset} (h : off' ≠ off) :
    (b.writeWord off v).readWord off' = b.readWord off' := by
  cases hr : Reg.ofOffset off with
  | none => rw [Block.writeWord, hr]
  | some r =>
    obtain rfl := Reg.ofOffset_eq_some.mp hr
    cases hr' : Reg.ofOffset off' with
    | none => simp only [Block.readWord, hr']
    | some r' =>
      obtain rfl := Reg.ofOffset_eq_some.mp hr'
      simp only [Block.readWord_offset, Block.writeWord_offset]
      exact b.readReg_writeReg_ne v fun e => h (e ▸ rfl)

/-- Settles O17: a read adds a reply and nothing else, and a write is one of the block's words. -/
theorem readsHaveNoSideEffect : Obligations.ReadsHaveNoSideEffect := by
  intro s t off v
  refine ⟨fun hread => ?_, fun h0 hwrite => ?_⟩
  · simp [exec_regRead_next hread]
  · obtain ⟨haligned, rfl⟩ := exec_regWrite_next h0 hwrite
    refine ⟨?_, ?_, fun off' hoff => Block.readWord_writeWord_ne _ v hoff⟩
    · rw [exec_regWrite _ v haligned h0]
      simp only [State.setBlk_fields, Block.writeWord_idem]
      rfl
    · exact congrArg s.setBlk (Block.writeWord_frame s.blk off v)

/-! ### The host's part of the block and the engine's -/

/-- The block with the registers and the rejection fields of another: what register writes, UB_MERGE
and NOP write, and EMIT does not look at (R90, R442). -/
def Block.withHost (b c : Block) : Block :=
  { b with
    cfg := c.cfg, tcStart := c.tcStart, ub := c.ub, ubStage := c.ubStage, bgf := c.bgf
    field1 := c.field1, sampleRate := c.sampleRate, duration := c.duration
    reject := c.reject, rejCode := c.rejCode }

/-- An effect on the host's part of the block that looks at that part only. -/
def HostOnly (f : Block → Block) : Prop := ∀ b c : Block, f (b.withHost c) = b.withHost (f c)

@[simp] theorem Block.withHost_self (b : Block) : b.withHost b = b := rfl

theorem HostOnly.eq_withHost {f : Block → Block} (hf : HostOnly f) (b : Block) :
    f b = b.withHost (f b) :=
  hf b b

theorem hostOnly_clearReject : HostOnly Block.clearReject := fun _ _ => rfl

theorem hostOnly_ubMerge (m : BitVec 4) : HostOnly fun b => b.clearReject.ubMerge m := fun _ _ => rfl

theorem hostOnly_writeWord (off : Offset) (v : Word) : HostOnly fun b => b.writeWord off v := by
  intro b c
  simp only [Block.writeWord]
  cases Reg.ofOffset off with
  | none => rfl
  | some r => cases r <;> rfl

/-- The frames assembled are those of the snapshot, whatever the host's part holds (R90, R345). -/
theorem Block.nextFrames_withHost (p : Params) (n : Nat) (b c : Block) :
    (b.withHost c).nextFrames p n = (b.nextFrames p n).withHost c := by
  induction n generalizing b with
  | zero => rfl
  | succ n ih =>
    calc (b.withHost c).nextFrames p (n + 1)
      _ = ((b.nextFrame p).withHost c).nextFrames p n := rfl
      _ = (b.nextFrames p (n + 1)).withHost c := ih _

/-- The sample emitted is that of the snapshot, whatever the host's part holds (R90, R345). -/
theorem State.emitSample_withHost (s : State) (c : Block) :
    (s.setBlk (s.blk.withHost c)).emitSample =
      s.emitSample.setBlk (s.emitSample.blk.withHost c) := by
  have hthrough : (s.blk.withHost c).assembleThrough s.params (s.blk.halfBit / 160) =
      (s.blk.assembleThrough s.params (s.blk.halfBit / 160)).withHost c :=
    Block.nextFrames_withHost _ _ _ _
  have hhalf : (s.blk.withHost c).halfBit = s.blk.halfBit := rfl
  simp only [State.emitSample, State.setBlk_fields, hhalf, hthrough]
  rfl

/-- EMIT keeps the host's part of the block and does not look at it (R90). -/
theorem execEmit_withHost {s u : State} (h : exec .emit s = .next u) (c : Block) :
    exec .emit (s.setBlk (s.blk.withHost c)) = .next (u.setBlk (u.blk.withHost c)) := by
  have henabled : (s.setBlk (s.blk.withHost c)).emitEnabled = s.emitEnabled := rfl
  rw [exec, execEmit] at h
  obtain rfl := next_injective h
  rw [exec, execEmit, henabled, State.emitSample_withHost]
  cases s.emitEnabled <;> rfl

/-- An effect on the host's part of the block commutes with EMIT (R90, R442). -/
theorem HostOnly.execEmit_setBlk {f : Block → Block} (hf : HostOnly f) {s u : State}
    (h : exec .emit s = .next u) :
    exec .emit (s.setBlk (f s.blk)) = .next (u.setBlk (f u.blk)) := by
  have hkept : u = u.setBlk (u.blk.withHost s.blk) :=
    next_injective (h.symm.trans (execEmit_withHost h s.blk))
  have hblk : u.blk = u.blk.withHost s.blk := congrArg State.blk hkept
  calc exec .emit (s.setBlk (f s.blk))
    _ = exec .emit (s.setBlk (s.blk.withHost (f s.blk))) := by rw [← hf.eq_withHost]
    _ = .next (u.setBlk (u.blk.withHost (f s.blk))) := execEmit_withHost h _
    _ = .next (u.setBlk (f u.blk)) := by rw [← hf u.blk s.blk, ← hblk]

/-- NOP, UB_MERGE and a register write at an offset but that of `CMD` are effects on the host's part
of the block (R172, R178, R241). -/
theorem exec_hostOnly {i : Instr}
    (hi : i = .nop ∨ (∃ m, i = .ubMerge m) ∨ ∃ off v, off ≠ 0x00 ∧ i = .regWrite off v) :
    ∃ f, HostOnly f ∧ ∀ s t : State, exec i s = .next t → t = s.setBlk (f s.blk) := by
  obtain rfl | ⟨m, rfl⟩ | ⟨off, v, h0, rfl⟩ := hi
  · refine ⟨_, hostOnly_clearReject, fun s t h => ?_⟩
    rw [exec, execNop, Block.issue_accept (acceptCode_nop _)] at h
    exact (next_injective h).symm
  · refine ⟨_, hostOnly_ubMerge m, fun s t h => ?_⟩
    rw [exec, execUbMerge, Block.issue_accept (acceptCode_ubMerge m _)] at h
    exact (next_injective h).symm
  · exact ⟨_, hostOnly_writeWord off v, fun s t h => (exec_regWrite_next h0 h).2⟩

/-- Settles O52: each of these instructions is an effect on the host's part of the block. -/
theorem writesCommuteWithEmit : Obligations.WritesCommuteWithEmit := by
  intro i hi s t1 t2 u1 u2 ht1 ht2 hu1 hu2
  obtain ⟨f, hf, hexec⟩ := exec_hostOnly hi
  obtain rfl := hexec _ _ ht1
  obtain rfl := hexec _ _ hu2
  exact ⟨next_injective (ht2.symm.trans (hf.execEmit_setBlk hu1)), rfl⟩

/-! ### Which step delivers a sample -/

@[simp] theorem Block.assembleThrough_samples (p : Params) (k : Nat) (b : Block) :
    (b.assembleThrough p k).samples = b.samples := by
  rw [Block.assembleThrough, Block.nextFrames_frame]

/-- EMIT's one sample: delivered, recorded and counted at one level (R345, R348, R349). -/
theorem State.emitSample_delivers (s : State) : ∃ level : Bool,
    s.emitSample.sink =
      { s.sink with accepted := s.sink.accepted ++ [{ level := level, pcm := pcmOfLevel level }] } ∧
    s.emitSample.output = s.output ++ [level] ∧ s.emitSample.blk.level = level ∧
    s.emitSample.blk.samples = s.blk.samples + 1 ∧ s.emitSample.params = s.params := by
  refine ⟨_, rfl, rfl, rfl, ?_, rfl⟩
  simp [State.emitSample]

/-- START counts from 0 again, or leaves the count where validation fails (R341). -/
theorem Block.start_samples_le (p : Params) (b : Block) : (b.start p).samples ≤ b.samples := by
  unfold Block.start
  split
  · simp
  · exact Nat.zero_le _

@[simp] theorem Block.tcLoad_samples (p : Params) (b : Block) :
    (b.tcLoad p).samples = b.samples := by
  unfold Block.tcLoad
  split <;> simp

/-- No command counts a sample (R175). -/
theorem Block.command_samples_le (p : Params) (v : Word) (b : Block) :
    (b.command p v).samples ≤ b.samples := by
  obtain ⟨_, -, -, e⟩ | ⟨-, e⟩ | ⟨-, -, e⟩ | ⟨-, -, e⟩ | ⟨-, -, -, e⟩ | ⟨-, -, -, e⟩ | ⟨_, -, e⟩ :=
    Block.command_cases p v b
  · simp [e]
  · simp [e]
  · rw [e]; exact Block.start_samples_le p _
  · simp [e]
  · simp [e, Block.tcAdvance]
  · simp [e, Block.assemble]
  · simp [e, Block.ubMerge]

@[simp] theorem Block.writeWord_samples (b : Block) (off : Offset) (v : Word) :
    (b.writeWord off v).samples = b.samples := by
  rw [Block.writeWord_frame]

/-- Settles O53, by the cases of a step: of those only the engine's turn, with EMIT enabled, passes
a sample to the sink. -/
theorem samplesNeverDroppedOrRepeated : Obligations.SamplesNeverDroppedOrRepeated := by
  intro s t hstep
  obtain ⟨-, rfl⟩ | ⟨x, rest, hp, hx⟩ := step_cases hstep
  · exact ⟨rfl, .inl ⟨rfl, le_rfl, .inl rfl⟩⟩
  obtain ⟨hreset, rfl⟩ | ⟨hlow, ⟨-, rfl⟩ | ⟨hengine, hemit⟩ | ⟨_, rfl⟩ | ⟨v, -, rfl⟩ |
    ⟨off, v, -, rfl⟩⟩ := hx
  · refine ⟨rfl, .inl ⟨rfl, Nat.zero_le _, .inr ⟨rfl, x.sinkReady, x.request, rest, ?_⟩⟩⟩
    rw [hp, ← hreset]
  · exact ⟨rfl, .inl ⟨rfl, le_rfl, .inl rfl⟩⟩
  · obtain ⟨-, e⟩ | ⟨hbusy, hready, e⟩ := execEmit_cases (s.reach x rest)
    · obtain rfl := next_injective (hemit.symm.trans e)
      exact ⟨rfl, .inl ⟨rfl, le_rfl, .inl rfl⟩⟩
    · obtain rfl := next_injective (hemit.symm.trans e)
      obtain ⟨level, hsink, houtput, hlevel, hsamples, hparams⟩ := (s.reach x rest).emitSample_delivers
      have hturn : x = instant true .engine := by
        rw [eq_instant hlow, hengine, show x.sinkReady = true from hready]
      exact ⟨hparams, .inr ⟨⟨rest, by rw [hp, hturn]⟩, hbusy, by rw [hsink]; exact hready, hsamples,
        ⟨level, pcmOfLevel level⟩, by rw [hsink]; rfl, houtput, hlevel, rfl⟩⟩
  · exact ⟨rfl, .inl ⟨rfl, le_rfl, .inl rfl⟩⟩
  · exact ⟨rfl, .inl ⟨rfl, Block.command_samples_le _ v _, .inl rfl⟩⟩
  · exact ⟨rfl, .inl ⟨rfl, (Block.writeWord_samples _ off v).le, .inl rfl⟩⟩

end Sys2Proof.Machine
end

section
/-!
PROOF. Encoding (spec/30_encoding.md R110 to R115): the decoder and the encoder agree, and a word
written to `CMD` makes one step in either format.
-/

namespace Sys2Proof.Machine

open Sys2Proof.Claims

/-! ### Decoder and encoder -/

/-- The encoding of a well-formed instruction decodes to it (R110 to R112, R115). -/
theorem decode_of_encode {i : Instr} (hi : i.wellFormed = true) {a : Access}
    (ha : encode i = some a) : decode a = .ok i := by
  cases i with
  | nop | start | tcLoad | tcAdvance | assemble =>
    obtain rfl := Option.some.inj ha
    exact decodeCommand_plain (by decide)
  | ubMerge m =>
    obtain rfl := Option.some.inj ha
    exact decodeCommand_ubMerge m
  | regRead off =>
    obtain rfl := Option.some.inj ha
    exact decodeBus_busDesc false hi 0
  | regWrite off v =>
    obtain rfl := Option.some.inj ha
    exact decodeBus_busDesc true hi v
  | emit => contradiction

/-- EMIT alone has no encoding (R115). -/
theorem encode_eq_none_iff {i : Instr} : encode i = none ↔ i = .emit := by
  cases i <;> simp [encode]

/-- Settles O1: an instruction with an encoding is what that decodes to, and EMIT has none. -/
theorem decodeOfEncodeIsIdentity : Obligations.DecodeOfEncodeIsIdentity := by
  intro i hi
  cases ha : encode i with
  | none => exact .inl ⟨encode_eq_none_iff.mp ha, rfl⟩
  | some a => exact .inr ⟨a, rfl, decode_of_encode hi ha⟩

/-- Settles O2, by what an access in each of the two formats can decode to. -/
theorem encodeOfDecodeIsIdentity : Obligations.EncodeOfDecodeIsIdentity := by
  intro a i hdecode
  cases a with
  | cmd v =>
    obtain ⟨hwf, hencode⟩ := decodeCommand_ok hdecode
    exact ⟨hwf, .inl hencode⟩
  | bus bytes desc data =>
    obtain ⟨rfl, hwf, ⟨hdesc, rfl⟩ | ⟨hdesc, rfl⟩⟩ := decodeBus_ok hdecode
    · exact ⟨hwf, .inl (by rw [encode, ← hdesc])⟩
    · exact ⟨hwf, .inr ⟨_, data, rfl, by rw [← hdesc]⟩⟩

/-- Settles O3: the closed words by evaluation, the descriptors as those of a read and a write. -/
theorem specWordsDecode : Obligations.SpecWordsDecode := by
  refine ⟨by decide, by decide, by decide, by decide, by decide, by decide, fun data => ?_,
    fun data => ?_, by decide, by decide⟩
  · exact decodeBus_busDesc false (off := 0x08) (by decide) data
  · exact decodeBus_busDesc true (off := 0x20) (by decide) data

/-! ### A word written to `CMD` -/

/-- A word presented as a command, in either format, is performed as one (R110, R115, R175). -/
theorem step_command {s : State} {v : Word} {ready : Bool} {rest : List Instant} {a : Access}
    (ha : a = .cmd v ∨ a = .bus 4 0x100 v) (hp : s.pending = instant ready (.access a) :: rest) :
    step s = .next ((reached s ready rest).setBlk (s.blk.command s.params v)) := by
  rw [step_instant hp]
  obtain rfl | rfl := ha
  · exact serve_command v _
  · exact serve_busCommand v _

/-- Settles O6: in both formats the step is the command of the word. -/
theorem commandFormatsAgree : Obligations.CommandFormatsAgree := by
  intro s v
  refine ⟨fun i hdecode => ?_, fun ready rest => ?_⟩
  · calc exec (.regWrite 0x00 v) s = .next (s.setBlk (s.blk.command s.params v)) := rfl
      _ = serve (.access (.cmd v)) s := (serve_command v s).symm
      _ = exec i s := serve_access hdecode s
  · rw [step_command (.inl rfl) rfl, step_command (.inr rfl) rfl]
    rfl

/-- The fields of a command word by number (R110). -/
theorem cmdOp_eq_bitsAt (v : Word) : (cmdOp v).toNat = bitsAt v 0 8 := extract_toNat v 0 8

theorem cmdArg_eq_bitsAt (v : Word) : (cmdArg v).toNat = bitsAt v 8 8 := extract_toNat v 8 8

theorem cmdHi_eq_bitsAt (v : Word) : (cmdHi v).toNat = bitsAt v 16 16 := extract_toNat v 16 16

theorem argHigh_eq_bitsAt (v : Word) : (argHigh (cmdArg v)).toNat = bitsAt v 12 4 := by
  rw [argHigh_toNat, cmdArg_toNat, bitsAt]
  omega

/-- The acceptance of a command word, by the numbers of R176. -/
theorem acceptCode_toNat (v : Word) (b : Block) :
    (acceptCode (cmdOp v) (cmdArg v) (cmdHi v) b).toNat = acceptance v b.busy b.clkValid := by
  have eq_iff {w : Nat} (x y : BitVec w) : x = y ↔ x.toNat = y.toNat := BitVec.toNat_inj.symm
  have hclock : (bitsAt v 0 8 = 1 ∨ bitsAt v 0 8 = 2 ∨ bitsAt v 0 8 = 3 ∨ bitsAt v 0 8 = 4) ↔
      1 ≤ bitsAt v 0 8 ∧ bitsAt v 0 8 ≤ 4 := by omega
  simp only [acceptCode, acceptance, ne_eq, eq_iff, apply_ite BitVec.toNat, cmdOp_eq_bitsAt,
    cmdArg_eq_bitsAt, cmdHi_eq_bitsAt, argHigh_eq_bitsAt, BitVec.reduceToNat, hclock]

/-- A command whose acceptance fails is rejected with its code and has no other effect (R391). -/
theorem Block.command_rejected {p : Params} {v : Word} {b : Block} {code : Nat}
    (h : acceptance v b.busy b.clkValid = code) (hcode : 0 < code) (h8 : code < 8) :
    b.command p v = rejected b code := by
  rw [← acceptCode_toNat] at h
  have hc : acceptCode (cmdOp v) (cmdArg v) (cmdHi v) b = BitVec.ofNat 3 code :=
    BitVec.eq_of_toNat_eq (by rw [h, BitVec.toNat_ofNat, Nat.mod_eq_of_lt h8])
  have hne : BitVec.ofNat 3 code ≠ 0 := by
    intro h0
    rw [hc, h0] at h
    exact hcode.ne h
  exact Block.issue_reject hc hne _

/-- The step of a word, in either format, whose acceptance fails. -/
theorem step_command_rejected {s : State} {v : Word} {ready : Bool} {rest : List Instant}
    {a : Access} (ha : a = .cmd v ∨ a = .bus 4 0x100 v)
    (hp : s.pending = instant ready (.access a) :: rest) {code : Nat}
    (h : acceptance v s.blk.busy s.blk.clkValid = code) (hcode : 0 < code) (h8 : code < 8) :
    step s = .next { reached s ready rest with blk := rejected s.blk code } := by
  rw [step_command ha hp, Block.command_rejected h hcode h8]
  rfl

/-- Settles O4: a reserved opcode fails the first check of the acceptance. -/
theorem reservedOpcodeRejected : Obligations.ReservedOpcodeRejected := by
  intro s v ready rest a ha hop hp
  exact step_command_rejected ha hp (if_pos hop) (by decide) (by decide)

/-- Reserved bits that are not all 0, under a defined opcode, fail the second check of the acceptance
or the one on the argument (R112, R176). -/
theorem acceptance_reservedBits {v : Word} (hop : bitsAt v 0 8 ≤ 5)
    (hbits : bitsAt v 16 16 ≠ 0 ∨ (bitsAt v 0 8 = 5 ∧ bitsAt v 12 4 ≠ 0) ∨
      (bitsAt v 0 8 ≠ 5 ∧ bitsAt v 8 8 ≠ 0)) (busy clkValid : Bool) :
    acceptance v busy clkValid = 3 := by
  rw [acceptance, if_neg (by omega)]
  by_cases hhi : bitsAt v 16 16 ≠ 0
  · exact if_pos hhi
  rw [if_neg hhi]
  obtain h | hmask | harg := hbits
  · exact absurd h hhi
  · exact if_pos hmask
  · rw [if_neg fun h => harg.1 h.1]
    exact if_pos harg

/-- The word of UB_MERGE by number (R112). -/
theorem ubMerge_word (m : BitVec 4) :
    BitVec.ofNat 32 (m.toNat * 256 + 5) = commandWord 0x05 (0#4 ++ m) := by
  apply BitVec.eq_of_toNat_eq
  have := m.isLt
  simp only [commandWord_toNat, maskArg_toNat, BitVec.toNat_ofNat, BitVec.reduceToNat]
  omega

/-- Settles O5: the word of UB_MERGE is its encoding, and reserved bits fail the acceptance. -/
theorem argumentAndReservedBits : Obligations.ArgumentAndReservedBits := by
  refine ⟨fun m => ?_, fun s v ready rest a ha hop hbits hp => ?_⟩
  · rw [ubMerge_word]
    exact decodeCommand_ubMerge m
  · exact step_command_rejected ha hp (acceptance_reservedBits hop hbits _ _) (by decide) (by decide)

end Sys2Proof.Machine
end

section
/-!
PROOF. The assembled frame (spec/30_encoding.md R122 to R132): where its digits, its user bits and its
flags stand.
-/

namespace Sys2Proof.Machine

open Sys2Proof.Claims

/-! ### Digits -/

/-- The frame bits that carry a flag, or at some rate the polarity correction (R122). -/
def flagBits : List Nat := [10, 11, 27, 43, 58, 59]

/-- Off the flag bits a field of the frame is one of the digits and the user bits (R126). -/
theorem fieldOf_assembleFrame {p w d : Nat} (t : Timecode) (r : Rate) (df cf : Bool) (U : Word)
    (G : BitVec 8) (hpw : p + w ≤ 64) (hflags : ∀ j ∈ flagBits, j < p ∨ p + w ≤ j)
    (hd : d < 2 ^ w)
    (h : ∀ i, i < w → (putUserBits U (putDigits t 0)).getLsbD (p + i) = d.testBit i) :
    fieldOf (assembleFrame t r df cf U G) p w = d := by
  refine fieldOf_eq hd fun i hi => ?_
  simp only [flagBits, List.forall_mem_cons] at hflags
  rw [assembleFrame_data t r df cf U G (by omega) (by omega), h i hi]

/-- The digit fields of a frame, for a timecode whose digits fit them (R125, R128, R263). -/
theorem fieldOf_digits (t : Timecode) (r : Rate) (df cf : Bool) (U : Word) (G : BitVec 8)
    (hh : t.h < 24) (hm : t.m < 60) (hs : t.s < 60) :
    let F := assembleFrame t r df cf U G
    fieldOf F 0 4 = t.f % 10 ∧ fieldOf F 8 2 = t.f / 10 % 4 ∧
      fieldOf F 16 4 = t.s % 10 ∧ fieldOf F 24 3 = t.s / 10 ∧
      fieldOf F 32 4 = t.m % 10 ∧ fieldOf F 40 3 = t.m / 10 ∧
      fieldOf F 48 4 = t.h % 10 ∧ fieldOf F 56 2 = t.h / 10 := by
  refine ⟨?_, ?_, ?_, ?_, ?_, ?_, ?_, ?_⟩ <;>
    refine fieldOf_assembleFrame t r df cf U G (by decide) (by decide) (by omega) fun i hi => ?_ <;>
    rw [data_getLsbD U t (by omega)] <;> interval_cases i <;> rfl

/-- Settles O36: the digits of the fields add up to the timecode, the frame tens modulo 4. -/
theorem digitsDecodeToTimecode : Obligations.DigitsDecodeToTimecode := by
  rintro p ⟨h, m, s, f⟩ r df cf U G F hvalid rfl
  obtain ⟨hh, hm, hs, hf, -⟩ := (Timecode.valid_iff p r df _).mp hvalid
  have hf60 : f < 60 := hf.trans_le r.nominal_le
  obtain ⟨h0, h8, h16, h24, h32, h40, h48, h56⟩ := fieldOf_digits ⟨h, m, s, f⟩ r df cf U G hh hm hs
  refine ⟨h0, h8, h16, h24, h32, h40, h48, h56, ?_⟩
  rw [decodedTimecode, h0, h8, h16, h24, h32, h40, h48, h56]
  simp only [Timecode.mk.injEq]
  refine ⟨by omega, by omega, by omega, ?_⟩
  split <;> omega

/-! ### User bits -/

/-- Bit `i` of a bit field of a word. -/
theorem bitsAt_testBit (v : Word) (lo : Nat) {n i : Nat} (hi : i < n) :
    (bitsAt v lo n).testBit i = v.getLsbD (lo + i) := by
  rw [bitsAt, Nat.testBit_mod_two_pow, Nat.testBit_div_two_pow, BitVec.testBit_toNat, Nat.add_comm i]
  simp [hi]

/-- User-bits field `k` before the flags are put (R126, R264). -/
theorem data_userBits (U : Word) (t : Timecode) {k i : Nat} (hk : 1 ≤ k) (hk8 : k ≤ 8)
    (hi : i < 4) :
    (putUserBits U (putDigits t 0)).getLsbD (8 * k - 4 + i) = (ubNibble U k).testBit i := by
  rw [data_getLsbD U t (by omega)]
  interval_cases k <;> interval_cases i <;> rfl

/-- User-bits field `k` of a frame is nibble `k` of the payload (R130). -/
theorem fieldOf_userBits (t : Timecode) (r : Rate) (df cf : Bool) (U : Word) (G : BitVec 8)
    {k : Nat} (hk : 1 ≤ k) (hk8 : k ≤ 8) :
    fieldOf (assembleFrame t r df cf U G) (8 * k - 4) 4 = bitsAt U (4 * k - 4) 4 := by
  rw [bitsAt, ← ubNibble_eq]
  refine fieldOf_assembleFrame t r df cf U G (by omega) (fun j hj => ?_) (ubNibble_lt U k)
    fun i hi => data_userBits U t hk hk8 hi
  simp only [flagBits, List.mem_cons, List.not_mem_nil, or_false] at hj
  omega

/-- Settles O37: a frame bit is a bit of its field, and a field is a nibble of the payload. -/
theorem userBitsPlacement : Obligations.UserBitsPlacement := by
  rintro t r df cf U G F rfl
  refine ⟨fun k i hk hk8 hi => ?_, fun g hg => ⟨?_, ?_⟩⟩
  · rw [← fieldOf_testBit _ _ hi, fieldOf_userBits t r df cf U G hk hk8, bitsAt_testBit U _ hi]
  · have h := fieldOf_userBits t r df cf U G (k := 2 * g + 1) (by omega) (by omega)
    rwa [show 8 * (2 * g + 1) - 4 = 16 * g + 4 by omega,
      show 4 * (2 * g + 1) - 4 = 8 * g by omega] at h
  · have h := fieldOf_userBits t r df cf U G (k := 2 * g + 2) (by omega) (by omega)
    rwa [show 8 * (2 * g + 2) - 4 = 16 * g + 12 by omega,
      show 4 * (2 * g + 2) - 4 = 8 * g + 4 by omega] at h

/-! ### Flags -/

/-- The flag bits of a frame, at the positions of the rate (R122, R265, R266). -/
theorem assembleFrame_flags (t : Timecode) (r : Rate) (df cf : Bool) (U : Word) (G : BitVec 8) :
    let F := assembleFrame t r df cf U G
    F.getLsbD 10 = df ∧ F.getLsbD 11 = cf ∧ F.getLsbD r.bgf0Pos = G.getLsbD 0 ∧
      F.getLsbD r.bgf1Pos = G.getLsbD 1 ∧ F.getLsbD r.bgf2Pos = G.getLsbD 2 := by
  refine ⟨?_, ?_, ?_, ?_, ?_⟩ <;> cases r <;>
    rw [assembleFrame_low _ _ _ _ _ _ (by decide) (by decide),
      putFlags_getLsbD _ _ _ _ _ (by decide)] <;>
    rfl

/-- Only `FLAGS[2:0]` reach the frame (R132). -/
theorem assembleFrame_congr_flags (t : Timecode) (r : Rate) (df cf : Bool) (U : Word)
    {G G' : BitVec 8} (h : ∀ j, j < 3 → G.getLsbD j = G'.getLsbD j) :
    assembleFrame t r df cf U G = assembleFrame t r df cf U G' := by
  simp only [assembleFrame, putFlags, h 0 (by decide), h 1 (by decide), h 2 (by decide)]

/-- Bytes that agree modulo `2 ^ n` agree in their low `n` bits. -/
theorem getLsbD_eq_of_mod_eq {w n : Nat} {x y : BitVec w} (h : x.toNat % 2 ^ n = y.toNat % 2 ^ n)
    {j : Nat} (hj : j < n) : x.getLsbD j = y.getLsbD j := by
  have h' := congrArg (Nat.testBit · j) h
  simpa [Nat.testBit_mod_two_pow, hj, BitVec.testBit_toNat] using h'

/-- Settles O39: the positions of R122 by rate, and the bits of `FLAGS` the assembly looks at. -/
theorem frameFlagsByRate : Obligations.FrameFlagsByRate := by
  rintro t r df cf U G G' F rfl
  obtain ⟨hdf, hcf, h0, h1, h2⟩ := assembleFrame_flags t r df cf U G
  have hpos : r.bgf0Pos = (if r = .fps25 then 27 else 43) ∧ r.bgf1Pos = 58 ∧
      r.bgf2Pos = (if r = .fps25 then 43 else 59) := by cases r <;> decide
  obtain ⟨e0, e1, e2⟩ := hpos
  rw [e0] at h0
  rw [e1] at h1
  rw [e2] at h2
  refine ⟨hdf, hcf, h0, h1, h2, fun hmod => ?_⟩
  exact assembleFrame_congr_flags t r df cf U fun j hj => getLsbD_eq_of_mod_eq (n := 3) hmod hj

end Sys2Proof.Machine
end

section
/-!
PROOF. The lines of a host program (spec/30_encoding.md R140, R141): the pseudo-instructions, their
words and their effect.
-/

namespace Sys2Proof.Machine

open Sys2Proof.Claims

/-! ### Lines of one and of two accesses -/

/-- What a host access does as a line of its own, or as the first of a longer line. -/
theorem run_access {s : State} {ready : Bool} {a : Access} {rest : List Instant} {b : Block} (k : Nat)
    (h : serve (.access a) (reached s ready rest) = .next ((reached s ready rest).setBlk b)) :
    Host.Core.run Sys2Proof.core (k + 1) { s with pending := hostInstant ready a :: rest } =
      Host.Core.run Sys2Proof.core k ((reached s ready rest).setBlk b) :=
  core_run_succ k ((step_instant rfl).trans h)

/-- A write of a register other than `CMD` (R172). -/
theorem serve_busWrite {r : Reg} (hr : r ≠ .cmd) (v : Word) (s : State) :
    serve (.access (busWrite r v)) s = .next (s.setBlk (s.blk.writeReg v r)) := by
  have h0 : r.offset ≠ 0x00 := fun h => hr (Reg.offset_injective (r' := .cmd) h)
  rw [busWrite, serve_write r.aligned_offset h0, Block.writeWord_offset]

/-- A line that is one write of a register other than `CMD` does that write and nothing else. -/
theorem runLine_busWrite {op : HostOp} {r : Reg} {v : Word} (hop : op.accesses = [busWrite r v])
    (hr : r ≠ .cmd) (s : State) (ready : Bool) (rest : List Instant) :
    runLine op s ready rest = .next ((reached s ready rest).setBlk (s.blk.writeReg v r)) := by
  simp only [runLine, hostProgram, List.flatMap_cons, List.flatMap_nil, List.append_nil, hop]
  exact run_access 0 (serve_busWrite hr v _)

/-! ### The words -/

/-- The `TC_START` word of a timecode whose values fit their fields (R33, R114). -/
theorem wordOfTc_toNat {h m s f : Nat} (hh : h < 32) (hm : m < 64) (hs : s < 64) (hf : f < 64) :
    (wordOfTc false ⟨h, m, s, f⟩).toNat = f + 2 ^ 8 * s + 2 ^ 16 * m + 2 ^ 24 * h := by
  simp only [wordOfTc, append_toNat, BitVec.toNat_ofNat, BitVec.toNat_ofBool, Bool.toNat_false]
  omega

/-- The fields of that word are the timecode. -/
theorem tcOfWord_wordOfTc {h m s f : Nat} (hh : h < 32) (hm : m < 64) (hs : s < 64) (hf : f < 64) :
    tcOfWord (wordOfTc false ⟨h, m, s, f⟩) = ⟨h, m, s, f⟩ := by
  simp only [tcOfWord, extract_toNat, wordOfTc_toNat hh hm hs hf, Timecode.mk.injEq]
  omega

/-- A mask that keeps the fields above keeps one more field of full width, after its two reserved
bits. -/
theorem append_field_and_eq {m n : Nat} {x a : BitVec m} (h : x &&& a = x) (y : BitVec n) :
    (x ++ 0#2 ++ y) &&& (a ++ 0#2 ++ BitVec.allOnes n) = x ++ 0#2 ++ y := by
  rw [BitVec.and_append, BitVec.and_append, h, BitVec.and_self, BitVec.and_allOnes]

/-- That word has no bit outside the write mask of `TC_START` (R93). -/
theorem wordOfTc_and_mask (t : Timecode) : wordOfTc false t &&& 0x1F3F3F3F = wordOfTc false t := by
  have hmask : (0x1F3F3F3F : Word) =
      BitVec.ofBool false ++ 0#2 ++ BitVec.allOnes 5 ++ 0#2 ++ BitVec.allOnes 6 ++ 0#2 ++
        BitVec.allOnes 6 ++ 0#2 ++ BitVec.allOnes 6 := by decide
  have hh := append_field_and_eq (BitVec.and_self (x := BitVec.ofBool false)) (BitVec.ofNat 5 t.h)
  have hm := append_field_and_eq hh (BitVec.ofNat 6 t.m)
  have hs := append_field_and_eq hm (BitVec.ofNat 6 t.s)
  rw [hmask]
  exact append_field_and_eq hs (BitVec.ofNat 6 t.f)

/-- The word SET_TC writes is the `TC_START` word of its numbers (R141). -/
theorem setTc_word {h m s f : Nat} (hh : h < 32) (hm : m < 64) (hs : s < 64) (hf : f < 64) :
    BitVec.ofNat 32 ((h <<< 24) ||| (m <<< 16) ||| (s <<< 8) ||| f) =
      wordOfTc false ⟨h, m, s, f⟩ := by
  apply BitVec.eq_of_toNat_eq
  have hsf : s <<< 8 + f < 2 ^ 16 := by omega
  have hmsf : m <<< 16 + (s <<< 8 + f) < 2 ^ 24 := by omega
  rw [Nat.or_assoc, Nat.or_assoc, ← Nat.shiftLeft_add_eq_or_of_lt (by omega : f < 2 ^ 8),
    ← Nat.shiftLeft_add_eq_or_of_lt hsf, ← Nat.shiftLeft_add_eq_or_of_lt hmsf,
    wordOfTc_toNat hh hm hs hf, BitVec.toNat_ofNat]
  omega

/-- The word SET_CFG writes (R141): its value, and no bit outside the write mask of `CFG` (R93). -/
theorem setCfg_word (r : Rate) (df cf : Bool) :
    let v : Word := r.sel.setWidth 32 ||| ((BitVec.ofBool df).setWidth 32 <<< 4)
      ||| ((BitVec.ofBool cf).setWidth 32 <<< 5)
    v.toNat = r.sel.toNat + 16 * df.toNat + 32 * cf.toNat ∧ v &&& 0x00000037 = v := by
  cases r <;> revert df cf <;> decide

/-- The word SET_FIELD1 writes (R141): its value, and no bit outside the write mask of `FIELD1`
(R93). -/
theorem setField1_word (x : BitVec 4) :
    let v : Word := 0x100 ||| x.setWidth 32
    v.toNat = 256 + x.toNat ∧ v &&& 0x0000010F = v := by
  revert x; decide

/-- A merge of all four groups takes the whole of `UB_STAGE` (R241). -/
theorem mergedUb_all (ub stage : Word) : mergedUb 0xF ub stage = stage := by
  have hbyte (g : Nat) (hg : g < 4) : mergedByte 0xF ub stage g = stage.extractLsb' (8 * g) 8 := by
    refine if_pos ?_
    interval_cases g <;> rfl
  apply BitVec.eq_of_toNat_eq
  have := stage.isLt
  simp only [mergedUb, append_toNat, hbyte _ (by decide : 0 < 4), hbyte _ (by decide : 1 < 4),
    hbyte _ (by decide : 2 < 4), hbyte _ (by decide : 3 < 4), extract_toNat]
  omega

/-- UB_MERGE is always accepted (R241). -/
theorem exec_ubMerge (m : BitVec 4) (s : State) :
    exec (.ubMerge m) s = .next (s.setBlk (s.blk.clearReject.ubMerge m)) := by
  rw [exec, execUbMerge, Block.issue_accept (acceptCode_ubMerge m s.blk)]

/-- The command of SET_UB (R141): all four groups of `UB` are supplied. -/
theorem serve_mergeAll (s : State) :
    serve (.access (busWrite .cmd (ubMergeWord 0xF))) s =
      .next (s.setBlk { s.blk with ub := s.blk.ubStage, reject := false, rejCode := 0 }) := by
  have hword : ubMergeWord 0xF = commandWord 0x05 (0#4 ++ 0xF#4) := by decide
  rw [hword]
  calc serve (.access (.bus 4 0x100 (commandWord 0x05 (0#4 ++ 0xF#4)))) s
      = serve (.access (.cmd (commandWord 0x05 (0#4 ++ 0xF#4)))) s := by
        rw [serve_busCommand, serve_command]
    _ = exec (.ubMerge 0xF) s := serve_access (a := .cmd _) (decodeCommand_ubMerge 0xF) s
    _ = _ := by
        rw [exec_ubMerge, Block.ubMerge, mergedUb_all]
        rfl

/-- The two accesses of SET_UB (R141): `UB_STAGE` takes the word, and the merge moves it to `UB`. -/
theorem runLine_setUb (u : Word) (s : State) (ready : Bool) (rest : List Instant) :
    runLine (.setUb u) s ready rest = .next ((reached s ready rest).setBlk
      { s.blk with ubStage := u, ub := u, reject := false, rejCode := 0 }) := by
  have hstaged : s.blk.writeReg u .ubStage = { s.blk with ubStage := u } := by
    rw [Block.writeReg, show u &&& 0xFFFFFFFF = u from BitVec.and_allOnes]
  have hwrite : runLine (.setUb u) s ready rest = Host.Core.run Sys2Proof.core 1
      { (reached s ready rest).setBlk { s.blk with ubStage := u } with
        pending := hostInstant ready (busWrite .cmd (ubMergeWord 0xF)) :: rest } := by
    rw [← hstaged]
    exact run_access 1 (serve_busWrite (by decide) u _)
  exact hwrite.trans (run_access 0 (serve_mergeAll _))

/-- Settles O57: each line but SET_UB is one write whose word keeps all its bits, and SET_UB is a
write and a merge of all four groups. -/
theorem pseudoInstructionsSetRegisters : Obligations.PseudoInstructionsSetRegisters := by
  refine ⟨fun hh mm ss ff hh32 hm hs hf => ?_, fun r df cf => ?_, fun x => ?_, ⟨rfl, ?_⟩,
    fun u => ⟨rfl, runLine_setUb u⟩⟩
  · have hop : (HostOp.setTc hh mm ss ff).accesses =
        [busWrite .tcStart (wordOfTc false ⟨hh, mm, ss, ff⟩)] := by
      rw [HostOp.accesses, setTc_word hh32 hm hs hf]
    have hmask := wordOfTc_and_mask ⟨hh, mm, ss, ff⟩
    refine ⟨_, hop, hmask, tcOfWord_wordOfTc hh32 hm hs hf, fun s ready rest => ?_⟩
    rw [runLine_busWrite hop (by decide), Block.writeReg, hmask]
    rfl
  · obtain ⟨hvalue, hmask⟩ := setCfg_word r df cf
    refine ⟨_, rfl, hvalue, fun s ready rest => ?_⟩
    rw [runLine_busWrite (r := .cfg) rfl (by decide), Block.writeReg, hmask]
    rfl
  · obtain ⟨hvalue, hmask⟩ := setField1_word x
    refine ⟨_, rfl, hvalue, fun s ready rest => ?_⟩
    rw [runLine_busWrite (r := .field1) rfl (by decide), Block.writeReg, hmask]
    rfl
  · exact runLine_busWrite (op := .clrField1) (r := .field1) rfl (by decide)

end Sys2Proof.Machine
end

section
/-!
PROOF. Host access (spec/40_host_access.md): what a read returns (R170), what a write stores (R172),
and what a write to `CMD` does to the rejection and the error fields (R175 to R178).
-/

namespace Sys2Proof.Machine

open Sys2Proof.Claims

/-! ### What a read returns -/

/-- The word read at an offset is the view of the register there. -/
theorem Block.readWord_eq (b : Block) {off : Offset} (r : Reg) (h : off = r.offset) :
    b.readWord off = b.readReg r := by
  rw [h, Block.readWord_offset]

/-- Settles O13: a read returns the view of the register addressed, and 0 where there is none. -/
theorem readConfigurationRegisters : Obligations.ReadConfigurationRegisters := by
  intro s off haligned
  exact ⟨s.blk.readWord off, exec_regRead s haligned, s.blk.readWord_eq .cmd,
    s.blk.readWord_eq .cfg, s.blk.readWord_eq .tcStart, s.blk.readWord_eq .ub,
    s.blk.readWord_eq .ubStage, s.blk.readWord_eq .bgf, s.blk.readWord_eq .field1,
    s.blk.readWord_eq .sampleRate, s.blk.readWord_eq .duration, s.blk.readWord_reserved⟩

/-- The `STATUS` word by number (R41). -/
theorem statusWord_toNat (b : Block) :
    (statusWord b).toNat = b.busy.toNat + 2 * b.done.toNat + 4 * b.errKind.toNat
      + 16 * b.errCode.toNat + 256 * b.reject.toNat + 512 * b.rejCode.toNat := by
  simp only [statusWord, append_toNat, BitVec.toNat_ofNat, BitVec.toNat_ofBool]
  omega

/-- The top bit of a word in the `TC_START` layout counts 2^31 (R42). -/
theorem wordOfTc_toNat_top (top : Bool) (t : Timecode) :
    (wordOfTc top t).toNat = (wordOfTc false t).toNat + 2 ^ 31 * top.toNat := by
  simp only [wordOfTc, append_toNat, BitVec.toNat_ofBool, Bool.toNat_false]
  omega

/-- The `CLKCFG` word by number (R47). -/
theorem Block.readReg_clkCfg_toNat (b : Block) :
    (b.readReg .clkCfg).toNat = b.rate.sel.toNat + 16 * b.df.toNat := by
  simp only [Block.readReg, append_toNat, BitVec.toNat_ofNat, BitVec.toNat_ofBool]
  omega

/-- The `LEVEL` word by number (R46). -/
theorem Block.readReg_level_toNat (b : Block) : (b.readReg .level).toNat = b.level.toNat := by
  simp only [Block.readReg, append_toNat, BitVec.toNat_ofNat, BitVec.toNat_ofBool]
  omega

/-- The `FRAME2` word is the number of its 16 frame bits (R45). -/
theorem Block.readReg_frame2_toNat (b : Block) :
    (b.readReg .frame2).toNat = (b.frame.extractLsb' 64 16).toNat := by
  simp only [Block.readReg, append_toNat, BitVec.toNat_ofNat]
  omega

/-- A bit of a field of the frame is the frame's bit at its place. -/
theorem getLsbD_frameField (F : FrameBits) (lo : Nat) {n i : Nat} (hi : i < n) :
    (F.extractLsb' lo n).getLsbD i = F.getLsbD (lo + i) := by
  rw [BitVec.getLsbD_extractLsb', decide_eq_true hi, Bool.true_and]

/-- The bits of `FRAME0` and `FRAME1` are 32 bits of the frame each (R45). -/
theorem Block.readReg_frame0_getLsbD (b : Block) {i : Nat} (hi : i < 32) :
    (b.readReg .frame0).getLsbD i = b.frame.getLsbD i := by
  rw [Block.readReg, getLsbD_frameField _ _ hi, Nat.zero_add]

theorem Block.readReg_frame1_getLsbD (b : Block) {i : Nat} (hi : i < 32) :
    (b.readReg .frame1).getLsbD i = b.frame.getLsbD (32 + i) :=
  getLsbD_frameField _ _ hi

/-- The low half of `FRAME2` is the last 16 bits of the frame (R45). -/
theorem Block.readReg_frame2_getLsbD (b : Block) {i : Nat} (hi : i < 16) :
    (b.readReg .frame2).getLsbD i = b.frame.getLsbD (64 + i) := by
  rw [BitVec.getLsbD, Block.readReg_frame2_toNat, ← BitVec.getLsbD, getLsbD_frameField _ _ hi]

/-- Settles O14: a read returns the view of the register addressed, and each view is a number or a
row of frame bits. -/
theorem readStatusAndResultRegisters : Obligations.ReadStatusAndResultRegisters := by
  intro s off haligned
  refine ⟨s.blk.readWord off, exec_regRead s haligned, fun h => ?status, fun h hh hm hs hf => ?tcNow,
    fun h => ?sampleCount, fun h => ?frameCount, fun h i hi => ?frame0, fun h i hi => ?frame1,
    fun h => ?frame2, fun h => ?level, fun h => ?clkCfg⟩
  case status =>
    rw [Block.readWord_eq _ .status h]
    exact statusWord_toNat _
  case tcNow =>
    rw [Block.readWord_eq _ .tcNow h, Block.readReg, wordOfTc_toNat_top, wordOfTc_toNat hh hm hs hf]
  case sampleCount =>
    rw [Block.readWord_eq _ .sampleCount h]
    exact BitVec.toNat_ofNat _ _
  case frameCount =>
    rw [Block.readWord_eq _ .frameCount h]
    exact BitVec.toNat_ofNat _ _
  case frame0 => rw [Block.readWord_eq _ .frame0 h, Block.readReg_frame0_getLsbD _ hi]
  case frame1 => rw [Block.readWord_eq _ .frame1 h, Block.readReg_frame1_getLsbD _ hi]
  case frame2 =>
    rw [Block.readWord_eq _ .frame2 h, Block.readReg_frame2_toNat]
    exact ⟨BitVec.isLt _, fun i hi => s.blk.readReg_frame2_getLsbD hi⟩
  case level => rw [Block.readWord_eq _ .level h, Block.readReg_level_toNat]
  case clkCfg => rw [Block.readWord_eq _ .clkCfg h, Block.readReg_clkCfg_toNat]

/-! ### What a write stores -/

/-- A register read back after a write holds the word under its write mask (R172). -/
theorem Block.readReg_writeReg_same (b : Block) (v : Word) {r : Reg} {mask : Word}
    (h : r.wmask = some mask) : (b.writeReg v r).readReg r = v &&& mask := by
  cases r with
  | cfg | tcStart | ubStage | bgf | field1 | sampleRate | duration =>
    obtain rfl := Option.some.inj h
    simp [Block.writeReg, Block.readReg, BitVec.and_assoc]
  | _ => contradiction

/-- The table of R93: an offset with a write mask is that of a read/write register. -/
theorem mem_readWrite_masks {off : Offset} {mask : Word} :
    (off, mask) ∈ [((0x08 : Offset), (0x00000037 : Word)), (0x0C, 0x1F3F3F3F), (0x14, 0xFFFFFFFF),
      (0x18, 0x000000FF), (0x1C, 0x0000010F), (0x20, 0xFFFFFFFF), (0x24, 0xFFFFFFFF)] ↔
      ∃ r : Reg, r.wmask = some mask ∧ r.offset = off := by
  have hall (r : Reg) : r ∈ Reg.all := by cases r <;> decide
  rw [← readWrite_masks, List.mem_filterMap]
  simp [hall]

/-- Settles O18: the register at the offset is written, and its view is the masked word. -/
theorem readAfterWriteGivesMaskedWord : Obligations.ReadAfterWriteGivesMaskedWord := by
  intro s off mask v hmem
  obtain ⟨r, hmask, rfl⟩ := mem_readWrite_masks.mp hmem
  refine ⟨_, exec_regWrite_reg s (Reg.ne_cmd_of_wmask hmask) v, ?_⟩
  rw [exec_regRead _ ((aligned_iff _).mp r.aligned_offset), Block.readWord_offset]
  simp only [State.setBlk_fields, Block.readReg_writeReg_same _ v hmask]
  rfl

/-- A write where no read/write register is changes nothing (R84). -/
theorem Block.writeWord_of_not_mem (b : Block) (v : Word) {off : Offset}
    (h : off ∉ [(0x00 : Offset), 0x08, 0x0C, 0x14, 0x18, 0x1C, 0x20, 0x24]) :
    b.writeWord off v = b := by
  obtain hsame | ⟨r, mask, hoff, hmask, -⟩ := Block.writeWord_cases b off v
  · exact hsame
  · have hmem := List.mem_map_of_mem (f := Prod.fst) (mem_readWrite_masks.mpr ⟨r, hmask, hoff.symm⟩)
    exact absurd (List.mem_cons_of_mem 0x00 hmem) h

/-- Settles O15: at the offset of a read/write register that register is written, and elsewhere the
block stays. -/
theorem writeStoresMaskedWord : Obligations.WriteStoresMaskedWord := by
  intro s v
  have hwrite (r : Reg) (hr : r ≠ .cmd) {b : Block} (hb : s.blk.writeReg v r = b) :
      exec (.regWrite r.offset v) s = .next (s.setBlk b) := hb ▸ exec_regWrite_reg s hr v
  have hfull : v &&& 0xFFFFFFFF = v := BitVec.and_allOnes
  refine ⟨hwrite .cfg (by decide) rfl, hwrite .tcStart (by decide) rfl,
    hwrite .ubStage (by decide) (by rw [Block.writeReg, hfull]), hwrite .bgf (by decide) rfl,
    hwrite .field1 (by decide) rfl, hwrite .sampleRate (by decide) (by rw [Block.writeReg, hfull]),
    hwrite .duration (by decide) (by rw [Block.writeReg, hfull]), fun off haligned hoff => ?_⟩
  · have h0 : off ≠ 0x00 := by
      rintro rfl
      exact hoff List.mem_cons_self
    rw [exec_regWrite s v haligned h0, Block.writeWord_of_not_mem _ v hoff, State.setBlk_self]

/-! ### Commands -/

/-- A write to `CMD` is the command of its word, and completes (R175). -/
theorem exec_regWrite_cmd (s : State) (v : Word) :
    exec (.regWrite 0x00 v) s = .next (s.setBlk (s.blk.command s.params v)) :=
  rfl

/-- The rejection codes are those of R390. -/
theorem acceptance_le (v : Word) (b : Block) : acceptance v b.busy b.clkValid ≤ 4 := by
  rw [← acceptCode_toNat]
  exact acceptCode_le _ _ _ b

/-- A command whose acceptance fails is rejected with the code of the check that failed (R391). -/
theorem Block.command_of_acceptance_ne {v : Word} {b : Block}
    (h : acceptance v b.busy b.clkValid ≠ 0) (p : Params) :
    b.command p v = rejected b (acceptance v b.busy b.clkValid) :=
  Block.command_rejected rfl (Nat.pos_of_ne_zero h) ((acceptance_le v b).trans_lt (by decide))

/-- A command that all checks accept performs its body after the bookkeeping (R175). -/
theorem Block.command_of_acceptance_eq {v : Word} {b : Block}
    (h : acceptance v b.busy b.clkValid = 0) (p : Params) :
    b.command p v = Block.perform p (cmdOp v) (cmdArg v) b.clearReject := by
  refine Block.issue_accept (BitVec.eq_of_toNat_eq ?_) _
  rw [acceptCode_toNat, h]
  rfl

/-- START leaves the rejection fields to the bookkeeping (R341). -/
theorem Block.start_reject (p : Params) (b : Block) :
    (b.start p).reject = b.reject ∧ (b.start p).rejCode = b.rejCode := by
  unfold Block.start
  split
  · simp
  · simp [Block.beginRun]

theorem Block.tcLoad_reject (p : Params) (b : Block) :
    (b.tcLoad p).reject = b.reject ∧ (b.tcLoad p).rejCode = b.rejCode := by
  unfold Block.tcLoad
  split <;> simp

/-- The body of a command leaves the rejection fields (R175). -/
theorem Block.perform_reject (p : Params) (op arg : BitVec 8) (b : Block) :
    (Block.perform p op arg b).reject = b.reject ∧ (Block.perform p op arg b).rejCode = b.rejCode := by
  unfold Block.perform
  split
  · exact b.start_reject p
  split
  · exact b.tcLoad_reject p
  · split_ifs <;> exact ⟨rfl, rfl⟩

/-- The body of a command but START and TC_LOAD leaves the error fields (R177). -/
theorem Block.perform_err (p : Params) {op : BitVec 8} (arg : BitVec 8) (b : Block) (h1 : op ≠ 0x01)
    (h2 : op ≠ 0x02) : (Block.perform p op arg b).errKind = b.errKind ∧
      (Block.perform p op arg b).errCode = b.errCode := by
  rw [Block.perform, if_neg h1, if_neg h2]
  split_ifs <;> exact ⟨rfl, rfl⟩

/-- Settles O19: the acceptance fails, and the command is rejected with its code, or it does not, and
the body runs after the bookkeeping. -/
theorem commandAcceptance : Obligations.CommandAcceptance := by
  intro s v
  refine ⟨_, exec_regWrite_cmd s v, ?_⟩
  simp only [State.setBlk_fields]
  by_cases h : acceptance v s.blk.busy s.blk.clkValid = 0
  · have hcmd := Block.command_of_acceptance_eq h s.params
    obtain ⟨hreject, hcode⟩ := Block.perform_reject s.params (cmdOp v) (cmdArg v) s.blk.clearReject
    rw [hcmd, hreject, hcode, h]
    refine ⟨rfl, by simp, fun hne => absurd rfl hne, fun hop => ?_⟩
    obtain ⟨h1, h2⟩ := hop.resolve_left (fun hne => hne rfl)
    rw [← cmdOp_eq_bitsAt] at h1 h2
    exact Block.perform_err s.params _ _ (fun e => h1 (congrArg BitVec.toNat e))
      (fun e => h2 (congrArg BitVec.toNat e))
  · have hle := acceptance_le v s.blk
    rw [Block.command_of_acceptance_ne h]
    refine ⟨?_, iff_of_true rfl h, fun _ => rfl, fun _ => ⟨rfl, rfl⟩⟩
    exact (BitVec.toNat_ofNat _ _).trans (Nat.mod_eq_of_lt (by omega))

/-- Settles O20: NOP is always accepted and its body does nothing, and any bit above opcode 0 is a
reserved one. -/
theorem nopClearsRejection : Obligations.NopClearsRejection := by
  refine fun s => ⟨?_, (commandFormatsAgree s 0x00000000).1 .nop (by decide), fun v hop hbits => ?_⟩
  · rw [exec, execNop, Block.issue_accept (acceptCode_nop s.blk)]
    rfl
  · have hreserved : bitsAt v 16 16 ≠ 0 ∨ bitsAt v 8 8 ≠ 0 := by
      simp only [bitsAt] at *
      omega
    have hcode : acceptance v s.blk.busy s.blk.clkValid = 3 :=
      acceptance_reservedBits (by omega) (hreserved.imp_right fun h => .inr ⟨by omega, h⟩) _ _
    rw [exec_regWrite_cmd, Block.command_rejected hcode (by decide) (by decide)]
    rfl

end Sys2Proof.Machine
end

section
/-!
PROOF. The timecode clock (spec/41_timecode_clock.md): what an advance does (R210 to R215), and its
period (R216).
-/

namespace Sys2Proof.Machine

open Sys2Proof.Claims

/-! ### One advance -/

/-- The advance of a valid timecode is valid (R215). -/
theorem Timecode.advance_valid {p : Params} {r : Rate} {df : Bool} {t : Timecode}
    (hdf : df = true → r.dfAllowed = true) (ht : t.valid p r df = true) :
    (t.advance p r df).valid p r df = true := by
  have hnominal := r.nominal_pos
  obtain ⟨hh, hm, hs, hf, hdrop⟩ := (t.valid_iff p r df).mp ht
  obtain ⟨hlt, e⟩ | ⟨-, hs', e⟩ | ⟨-, -, hm', e⟩ | ⟨-, -, -, hh', e⟩ | ⟨-, -, -, -, e⟩ :=
    t.advance_cases p r df hh hm hs hf <;> rw [e, Timecode.valid_iff] <;> dsimp only
  · exact ⟨hh, hm, hs, hlt, fun ⟨h1, h2, h3, h4⟩ => hdrop ⟨h1, h2, h3, by omega⟩⟩
  · exact ⟨hh, hm, by omega, hnominal, fun ⟨_, h2, _⟩ => nomatch h2⟩
  · split_ifs with hskip
    · have hfit : r.drop p < r.nominal := by
        have := Rate.dfAllowed_cases (p := p) (hdf hskip.1)
        omega
      exact ⟨hh, by omega, by decide, hfit, fun ⟨_, _, _, h4⟩ => h4.false⟩
    · exact ⟨hh, by omega, by decide, hnominal, fun ⟨h1, _, h3, _⟩ => hskip ⟨h1, h3⟩⟩
  · exact ⟨by omega, by decide, by decide, hnominal, fun ⟨_, _, h3, _⟩ => h3 rfl⟩
  · exact ⟨by decide, by decide, by decide, hnominal, fun ⟨_, _, h3, _⟩ => h3 rfl⟩

/-- Settles O29, by the five things an advance can do. -/
theorem advanceKeepsValidity : Obligations.AdvanceKeepsValidity :=
  fun _ _ _ _ hdf ht => Timecode.advance_valid hdf ht

/-- Settles O32, by the cases of an advance in which the second rolls. -/
theorem advanceCascades : Obligations.AdvanceCascades := by
  intro p r df h m s f hdf ht hlast
  obtain ⟨hh, hm, hs, hf, -⟩ := (Timecode.valid_iff p r df _).mp ht
  dsimp only at hh hm hs hf
  obtain ⟨hlt, -⟩ | ⟨-, hs', e⟩ | ⟨-, hs', hm', e⟩ | ⟨-, hs', hm', hh', e⟩ | ⟨-, hs', hm', hh', e⟩ :=
    Timecode.advance_cases p r df ⟨h, m, s, f⟩ hh hm hs hf <;> dsimp only at *
  · omega
  · exact ⟨fun _ => e, fun h1 => by omega, fun h1 => by omega, fun h1 => by omega⟩
  · exact ⟨fun h1 => by omega, fun _ _ => ⟨_, e⟩, fun _ h2 => by omega, fun _ h2 => by omega⟩
  · exact ⟨fun h1 => by omega, fun _ h2 => by omega, fun _ _ _ => e, fun _ _ h3 => by omega⟩
  · exact ⟨fun h1 => by omega, fun _ h2 => by omega, fun _ _ h3 => by omega, fun _ _ _ => e⟩

/-- The drop count by number (R120). -/
theorem Rate.drop_eq {r : Rate} (hr : r.dfAllowed = true) (p : Params) :
    r.drop p = if r = .fps2997 then 2 else if p.df5994Drop = .two then 2 else 4 := by
  obtain ⟨rfl, -, hd⟩ | ⟨rfl, -, ⟨hp, hd⟩ | ⟨hp, hd⟩⟩ := Rate.dfAllowed_cases (p := p) hr
  · exact hd
  · simp [hp, hd]
  · simp [hp, hd]

/-- Drop mode shows only at a change into a minute not divisible by 10 (R213). -/
theorem Timecode.advance_drop_eq {p : Params} {r : Rate} {t : Timecode} (ht : t.valid p r true = true)
    (h : ¬ (t.s = 59 ∧ t.f + 1 = r.nominal ∧ (t.m + 1) % 10 ≠ 0)) :
    t.advance p r true = t.advance p r false := by
  obtain ⟨-, hm, hs, hf, -⟩ := (t.valid_iff p r true).mp ht
  unfold Timecode.advance
  split_ifs with hframe hsecond hminute
  · rfl
  · rfl
  · simp
  · have hten : (t.m + 1) % 10 = 0 := by omega
    simp [hten]

/-- Settles O31: of the five things an advance can do, only the change of minute looks at the drop
mode. -/
theorem dropFrameSkipsAtMinuteChange : Obligations.DropFrameSkipsAtMinuteChange := by
  intro p r t hr ht
  obtain ⟨hh, hm, hs, hf, -⟩ := (t.valid_iff p r true).mp ht
  refine ⟨?_, Timecode.advance_drop_eq ht⟩
  rintro ⟨hs59, hlast, hminute⟩
  obtain ⟨_, _⟩ | ⟨_, _, _⟩ | ⟨-, -, -, e⟩ | ⟨_, _, _, _⟩ | ⟨_, _, _, _⟩ :=
    t.advance_cases p r true hh hm hs hf
  pick_goal 3
  · rw [e, if_pos ⟨rfl, hminute⟩, Rate.drop_eq hr]
  all_goals omega

/-! ### The count of the day -/

/-- How many frame values are skipped at a change into a minute not divisible by 10 (R213). -/
def skipCount (p : Params) (r : Rate) (df : Bool) : Nat := if df = true then r.drop p else 0

@[simp] theorem skipCount_nonDrop (p : Params) (r : Rate) : skipCount p r false = 0 := rfl

/-- The first frame value of minute `M` (R213). -/
def firstFrame (p : Params) (r : Rate) (df : Bool) (M : Nat) : Nat :=
  if M % 10 ≠ 0 then skipCount p r df else 0

/-- What the clock counts up to frame value 0 of minute `M` of the day, a value it may skip: each
minute has `60 NOMINAL - DROP` frames, and of ten minutes one has `DROP` more (R216). -/
def minuteStart (p : Params) (r : Rate) (df : Bool) (M : Nat) : Nat :=
  M * (60 * r.nominal - skipCount p r df) + M / 10 * skipCount p r df

/-- The count of valid timecodes before `t` in its day. -/
def Timecode.dayIndex (p : Params) (r : Rate) (df : Bool) (t : Timecode) : Nat :=
  minuteStart p r df (60 * t.h + t.m) + (t.s * r.nominal + t.f)

theorem Timecode.dayIndex_mk (p : Params) (r : Rate) (df : Bool) (h m s f : Nat) :
    Timecode.dayIndex p r df ⟨h, m, s, f⟩ = minuteStart p r df (60 * h + m) + (s * r.nominal + f) :=
  rfl

/-- Non-drop counting counts the timecodes of a day that skips nothing (R214). -/
theorem Timecode.dayIndex_nonDrop (p : Params) (r : Rate) (t : Timecode) :
    t.dayIndex p r false = frameIndex r t := by
  rw [dayIndex, minuteStart, skipCount_nonDrop, frameIndex, Nat.mul_zero, Nat.sub_zero]
  ring

section
variable {p : Params} {r : Rate} {df : Bool} {t u : Timecode}
  (hdf : df = true → r.dfAllowed = true)
include hdf

/-- A day is 1440 minutes (R216). -/
theorem minuteStart_day : minuteStart p r df 1440 = dayFrames p r df := by
  cases df with
  | false =>
    rw [minuteStart, dayFrames, skipCount_nonDrop, if_pos rfl]
    omega
  | true =>
    obtain ⟨rfl, hn, hd⟩ | ⟨rfl, hn, ⟨hp, hd⟩ | ⟨hp, hd⟩⟩ := Rate.dfAllowed_cases (p := p) (hdf rfl)
    · simp [minuteStart, dayFrames, skipCount, hn, hd]
    · simp [minuteStart, dayFrames, skipCount, hn, hd, hp]
    · simp [minuteStart, dayFrames, skipCount, hn, hd, hp]

theorem skipCount_le : skipCount p r df ≤ r.nominal := by
  unfold skipCount
  split_ifs with h
  · have := Rate.dfAllowed_cases (p := p) (hdf h)
    omega
  · exact Nat.zero_le _

theorem firstFrame_le (M : Nat) : firstFrame p r df M ≤ r.nominal := by
  unfold firstFrame
  split_ifs
  · exact skipCount_le hdf
  · exact Nat.zero_le _

/-- From frame value 0 of a minute to the first value of the next are `60 NOMINAL` frame values. -/
theorem minuteStart_succ (M : Nat) :
    minuteStart p r df (M + 1) + firstFrame p r df (M + 1) =
      minuteStart p r df M + 60 * r.nominal := by
  have hle := skipCount_le (p := p) hdf
  have hmul : (M + 1) * (60 * r.nominal - skipCount p r df) =
      M * (60 * r.nominal - skipCount p r df) + (60 * r.nominal - skipCount p r df) := Nat.succ_mul _ _
  unfold minuteStart firstFrame
  split_ifs with hten
  · rw [show (M + 1) / 10 = M / 10 by omega]
    omega
  · rw [show (M + 1) / 10 = M / 10 + 1 by omega, Nat.succ_mul (M / 10)]
    omega

/-- The first frame of a later minute is counted no earlier than the last of an earlier one. -/
theorem minuteStart_lt {M M' : Nat} (h : M < M') :
    minuteStart p r df M + 60 * r.nominal ≤ minuteStart p r df M' + firstFrame p r df M' := by
  have hmono : Monotone fun M => minuteStart p r df M + firstFrame p r df M := by
    refine monotone_nat_of_le_succ fun M => ?_
    have hle := firstFrame_le (p := p) hdf M
    rw [minuteStart_succ hdf]
    omega
  rw [← minuteStart_succ hdf]
  exact hmono h

/-- The frame values of a minute, counted from its second 0 (R215). -/
theorem Timecode.valid_range (ht : t.valid p r df = true) :
    firstFrame p r df (60 * t.h + t.m) ≤ t.s * r.nominal + t.f ∧
      t.s * r.nominal + t.f < 60 * r.nominal := by
  obtain ⟨-, -, hs, hf, hdrop⟩ := (t.valid_iff p r df).mp ht
  constructor
  · obtain h0 | hpos := Nat.eq_zero_or_pos t.s
    · unfold firstFrame skipCount
      split_ifs with hten hd
      · by_contra hlt
        exact hdrop ⟨hd, h0, by omega, by omega⟩
      · exact Nat.zero_le _
      · exact Nat.zero_le _
    · have hsecond := Nat.le_mul_of_pos_left r.nominal hpos
      have hfirst := firstFrame_le (p := p) hdf (60 * t.h + t.m)
      omega
  · have hlast : t.s * r.nominal ≤ 59 * r.nominal := Nat.mul_le_mul_right _ (by omega)
    omega

theorem Timecode.dayIndex_lt_of_minute_lt (ht : t.valid p r df = true)
    (hu : u.valid p r df = true) (h : 60 * t.h + t.m < 60 * u.h + u.m) :
    t.dayIndex p r df < u.dayIndex p r df := by
  have hminute := minuteStart_lt (p := p) hdf h
  have hend := (valid_range hdf ht).2
  have hstart := (valid_range hdf hu).1
  unfold dayIndex
  omega

theorem Timecode.dayIndex_lt (ht : t.valid p r df = true) :
    t.dayIndex p r df < dayFrames p r df := by
  obtain ⟨hh, hm, -⟩ := (t.valid_iff p r df).mp ht
  have hminute := minuteStart_lt (p := p) hdf (show 60 * t.h + t.m < 1440 by omega)
  have hend := (valid_range hdf ht).2
  have hmidnight : firstFrame p r df 1440 = 0 := if_neg (by decide)
  rw [← minuteStart_day hdf, dayIndex]
  omega

/-- A count belongs to one timecode. -/
theorem Timecode.dayIndex_injective (ht : t.valid p r df = true)
    (hu : u.valid p r df = true) (h : t.dayIndex p r df = u.dayIndex p r df) : t = u := by
  obtain ⟨-, htm, -, htf, -⟩ := (t.valid_iff p r df).mp ht
  obtain ⟨-, hum, -, huf, -⟩ := (u.valid_iff p r df).mp hu
  have hminute : 60 * t.h + t.m = 60 * u.h + u.m := by
    obtain hlt | heq | hlt := Nat.lt_trichotomy (60 * t.h + t.m) (60 * u.h + u.m)
    · exact absurd h (dayIndex_lt_of_minute_lt hdf ht hu hlt).ne
    · exact heq
    · exact absurd h (dayIndex_lt_of_minute_lt hdf hu ht hlt).ne'
  have hframe : t.s * r.nominal + t.f = u.s * r.nominal + u.f := by
    rw [dayIndex, dayIndex, hminute] at h
    exact Nat.add_left_cancel h
  have hsecond (v : Timecode) (hv : v.f < r.nominal) : (v.s * r.nominal + v.f) / r.nominal = v.s := by
    rw [Nat.add_comm, Nat.add_mul_div_right _ _ r.nominal_pos, Nat.div_eq_of_lt hv, Nat.zero_add]
  have hs : t.s = u.s := by rw [← hsecond t htf, hframe, hsecond u huf]
  have hf : t.f = u.f := by
    rw [hs] at hframe
    exact Nat.add_left_cancel hframe
  have hh : t.h = u.h := by omega
  have hm : t.m = u.m := by omega
  calc t = ⟨u.h, u.m, u.s, u.f⟩ := by rw [← hh, ← hm, ← hs, ← hf]
    _ = u := rfl

/-- An advance counts the next frame of the day, and begins the day anew after the last (R212, R213). -/
theorem Timecode.dayIndex_advance (ht : t.valid p r df = true) :
    (t.advance p r df).dayIndex p r df = (t.dayIndex p r df + 1) % dayFrames p r df := by
  have hlt := dayIndex_lt hdf (advance_valid hdf ht)
  suffices hnext : (t.advance p r df).dayIndex p r df = t.dayIndex p r df + 1 ∨
      t.dayIndex p r df + 1 = dayFrames p r df ∧ (t.advance p r df).dayIndex p r df = 0 by
    obtain e | ⟨e, e'⟩ := hnext
    · rw [← e, Nat.mod_eq_of_lt hlt]
    · rw [e, e', Nat.mod_self]
  obtain ⟨hh, hm, hs, hf, -⟩ := (t.valid_iff p r df).mp ht
  have hsucc := minuteStart_succ (p := p) hdf (60 * t.h + t.m)
  obtain ⟨_, e⟩ | ⟨hlast, _, e⟩ | ⟨hlast, hs59, _, e⟩ | ⟨hlast, hs59, hm59, _, e⟩ |
    ⟨hlast, hs59, hm59, hh23, e⟩ := t.advance_cases p r df hh hm hs hf
  · left
    rw [e, dayIndex_mk, dayIndex]
    omega
  · left
    rw [e, dayIndex_mk, dayIndex, Nat.succ_mul t.s]
    omega
  · left
    have hfirst : (if df = true ∧ (t.m + 1) % 10 ≠ 0 then r.drop p else 0) =
        firstFrame p r df (60 * t.h + t.m + 1) := by
      rw [firstFrame, show (60 * t.h + t.m + 1) % 10 = (t.m + 1) % 10 by omega]
      cases df <;> simp [skipCount]
    rw [e, hfirst, dayIndex_mk, dayIndex, hs59, ← Nat.add_assoc (60 * t.h)]
    omega
  · left
    have hfirst : firstFrame p r df (60 * t.h + t.m + 1) = 0 := if_neg (by omega)
    rw [e, dayIndex_mk, dayIndex, hs59,
      show 60 * (t.h + 1) + 0 = 60 * t.h + t.m + 1 by omega]
    omega
  · right
    have hday : 60 * t.h + t.m + 1 = 1440 := by omega
    have hmidnight : firstFrame p r df 1440 = 0 := if_neg (by decide)
    rw [hday, minuteStart_day hdf, hmidnight] at hsucc
    rw [e, dayIndex_mk, dayIndex, hs59]
    exact ⟨by omega, by simp [minuteStart]⟩

/-- What advancing `k` times keeps and counts. -/
theorem Timecode.iterate_advance (ht : t.valid p r df = true) (k : Nat) :
    ((Timecode.advance p r df)^[k] t).valid p r df = true ∧
      ((Timecode.advance p r df)^[k] t).dayIndex p r df =
        (t.dayIndex p r df + k) % dayFrames p r df := by
  induction k with
  | zero => exact ⟨ht, (Nat.mod_eq_of_lt (dayIndex_lt hdf ht)).symm⟩
  | succ k ih =>
    obtain ⟨hvalid, hindex⟩ := ih
    rw [Function.iterate_succ_apply']
    refine ⟨advance_valid hdf hvalid, ?_⟩
    rw [dayIndex_advance hdf hvalid, hindex, Nat.mod_add_mod, Nat.add_assoc]

end

/-! ### What is counted -/

/-- Settles O30: non-drop counting counts every frame of the day. -/
theorem nonDropNeverSkips : Obligations.NonDropNeverSkips := by
  intro p r t ht
  have hindex := Timecode.dayIndex_advance (df := false) (fun h => nomatch h) ht
  rw [Timecode.dayIndex_nonDrop, Timecode.dayIndex_nonDrop] at hindex
  refine ⟨hindex, fun hlast => ?_⟩
  obtain ⟨hh, hm, hs, hf, -⟩ := (t.valid_iff p r false).mp ht
  obtain ⟨hlt, -⟩ | ⟨-, -, e⟩ | ⟨-, -, -, e⟩ | ⟨-, -, -, -, e⟩ | ⟨-, -, -, -, e⟩ :=
    t.advance_cases p r false hh hm hs hf
  · omega
  · rw [e]
  · rw [e, if_neg fun h => Bool.false_ne_true h.1]
  · rw [e]
  · rw [e]

/-- Settles O33: advancing adds to the count modulo the frames of a day, and a count belongs to one
timecode. -/
theorem clockPeriodIsOneDay : Obligations.ClockPeriodIsOneDay := by
  intro p r df t hdf ht
  have hlt := Timecode.dayIndex_lt hdf ht
  constructor
  · obtain ⟨hvalid, hindex⟩ := Timecode.iterate_advance hdf ht (dayFrames p r df)
    rw [Nat.add_mod_right, Nat.mod_eq_of_lt hlt] at hindex
    exact Timecode.dayIndex_injective hdf hvalid ht hindex
  · intro k hpos hk hback
    have hindex := (Timecode.iterate_advance hdf ht k).2
    rw [hback] at hindex
    have hdvd : dayFrames p r df ∣ k := Nat.left_modEq_add_iff.mp ((Nat.mod_eq_of_lt hlt).trans hindex)
    exact absurd (Nat.le_of_dvd hpos hdvd) (by omega)

end Sys2Proof.Machine
end

section
/-!
PROOF. The commands of the clock (spec/41_timecode_clock.md R201 to R206): validation by the numbers
of the register words, TC_LOAD and TC_ADVANCE.
-/

namespace Sys2Proof.Machine

open Sys2Proof.Claims

/-! ### Validation by number -/

/-- The number of the check that failed, 0 if none did (R201, R381). -/
def checkNumber : Except ValError ClockConfig → Nat
  | .error e => e.code.toNat
  | .ok _ => 0

/-- The kind of a check from its number (R381). -/
theorem ValError.kind_eq (e : ValError) : e.kind = BitVec.ofNat 2 (kindOfCode e.code.toNat) := by
  cases e <;> rfl

theorem ValError.code_ne_zero (e : ValError) : e.code.toNat ≠ 0 := by
  cases e <;> decide

theorem Rate.nominalOfSel_sel (r : Rate) : nominalOfSel r.sel.toNat = r.nominal := by
  cases r <;> rfl

/-- Drop-frame is for selectors 2 and 4 (R121). -/
theorem Rate.dfAllowed_eq_false_iff (r : Rate) :
    r.dfAllowed = false ↔ r.sel.toNat ≠ 2 ∧ r.sel.toNat ≠ 4 := by
  cases r <;> decide

theorem Rate.dropOfSel_sel {r : Rate} (hr : r.dfAllowed = true) (p : Params) :
    dropOfSel p r.sel.toNat = r.drop p := by
  obtain ⟨rfl, -⟩ | ⟨rfl, -⟩ := Rate.dfAllowed_cases (p := p) hr <;> rw [Rate.drop_eq hr] <;> rfl

theorem cfgRateSel_eq_bitsAt (v : Word) : (cfgRateSel v).toNat = bitsAt v 0 3 := extract_toNat v 0 3

theorem cfgDfReq_iff_bitsAt (v : Word) : cfgDfReq v = true ↔ bitsAt v 4 1 = 1 := by
  have h := bitsAt_testBit v 4 (n := 1) (i := 0) (by decide)
  rw [cfgDfReq, ← h, Nat.testBit_zero, decide_eq_true_iff, bitsAt]
  omega

/-- `TC_START` by number (R33, R114). -/
theorem tcOfWord_eq_startTc (b : Block) : tcOfWord b.tcStart = startTc b := by
  simp only [tcOfWord, startTc, extract_toNat, bitsAt]

/-- The last check of R201, of a rate that allows the drop mode asked for. -/
theorem dropped_iff (p : Params) {r : Rate} {df : Prop} (hdf : df → r.dfAllowed = true) (t : Timecode) :
    (df ∧ t.dropped p r = true) ↔
      (df ∧ t.s = 0 ∧ t.m % 10 ≠ 0 ∧ t.f < dropOfSel p r.sel.toNat) := by
  refine and_congr_right fun h => ?_
  rw [Rate.dropOfSel_sel (hdf h)]
  simp [Timecode.dropped, and_assoc]

/-- The checks of R201 in the register words, of a rate that is valid. -/
theorem checkNumber_checkClock (p : Params) (needSR : Bool) (b : Block) {r : Rate}
    (hr : bitsAt b.cfg 0 3 = r.sel.toNat) (hle : ¬ 5 < bitsAt b.cfg 0 3) :
    checkNumber (checkClock p needSR b.sampleRate
      { rate := r, df := cfgDfReq b.cfg, tc := tcOfWord b.tcStart }) = validation p needSR b := by
  rw [validation, if_neg hle, hr, tcOfWord_eq_startTc, Rate.nominalOfSel_sel, checkClock]
  have hsr : b.sampleRate = 0 ↔ b.sampleRate.toNat = 0 := BitVec.toNat_inj.symm
  dsimp only
  simp only [cfgDfReq_iff_bitsAt, Rate.dfAllowed_eq_false_iff, hsr]
  by_cases hdrop : bitsAt b.cfg 4 1 = 1 ∧ r.sel.toNat ≠ 2 ∧ r.sel.toNat ≠ 4
  · rw [if_pos hdrop, if_pos hdrop]; rfl
  · have hdf : bitsAt b.cfg 4 1 = 1 → r.dfAllowed = true := fun h => by
      by_contra hno
      exact hdrop ⟨h, (Rate.dfAllowed_eq_false_iff r).mp (by simpa using hno)⟩
    simp only [if_neg hdrop, dropped_iff p hdf, apply_ite checkNumber]
    rfl

/-- Validation answers the first failing check of R201 in the register words. -/
theorem checkNumber_validate (p : Params) (needSR : Bool) (b : Block) :
    checkNumber (validate p needSR b) = validation p needSR b := by
  have hsel := cfgRateSel_eq_bitsAt b.cfg
  unfold validate
  cases hr : Rate.ofSel (cfgRateSel b.cfg) with
  | none =>
    rw [Rate.ofSel_eq_none, hsel] at hr
    rw [validation, if_pos hr]
    rfl
  | some r =>
    have hvalid : ¬ 5 < bitsAt b.cfg 0 3 := by
      rw [← hsel, ← Rate.ofSel_eq_none, hr]
      exact Option.some_ne_none r
    exact checkNumber_checkClock p needSR b (by rw [← hsel, Rate.ofSel_eq_some hr]) hvalid

/-- A failing check reports its kind and its number (R381, R383). -/
theorem validate_error {p : Params} {needSR : Bool} {b : Block} (h : validation p needSR b ≠ 0) :
    ∃ e, validate p needSR b = .error e ∧ e.code = BitVec.ofNat 4 (validation p needSR b) ∧
      e.kind = BitVec.ofNat 2 (kindOfCode (validation p needSR b)) := by
  rw [← checkNumber_validate] at h ⊢
  cases hv : validate p needSR b with
  | error e => exact ⟨e, rfl, by simp [checkNumber], e.kind_eq⟩
  | ok c => exact absurd (by rw [hv]; rfl) h

/-- A passing validation answers what the register words say (R201). -/
theorem validate_ok {p : Params} {needSR : Bool} {b : Block} (h : validation p needSR b = 0) :
    ∃ r : Rate, r.sel.toNat = bitsAt b.cfg 0 3 ∧
      validate p needSR b = .ok { rate := r, df := decide (bitsAt b.cfg 4 1 = 1), tc := startTc b } := by
  obtain ⟨e, he⟩ | ⟨c, hc, hrate, hdf, htc, -⟩ := validate_cases p needSR b
  · rw [← checkNumber_validate, he] at h
    exact absurd h e.code_ne_zero
  · have hdf' : c.df = decide (bitsAt b.cfg 4 1 = 1) := by
      rw [hdf, Bool.eq_iff_iff, cfgDfReq_iff_bitsAt, decide_eq_true_iff]
    exact ⟨c.rate, by rw [hrate, cfgRateSel_eq_bitsAt],
      by rw [hc, ← tcOfWord_eq_startTc, ← htc, ← hdf']⟩

/-! ### TC_LOAD and TC_ADVANCE -/

theorem Block.tcLoad_error {p : Params} {b : Block} {e : ValError}
    (h : validate p false b = .error e) : b.tcLoad p = b.raise e := by
  rw [Block.tcLoad, h]

theorem Block.tcLoad_ok {p : Params} {b : Block} {c : ClockConfig}
    (h : validate p false b = .ok c) : b.tcLoad p = b.loadClock c := by
  rw [Block.tcLoad, h]

theorem exec_tcLoad_busy {s : State} (h : s.blk.busy = true) :
    exec .tcLoad s = .next { s with blk := rejected s.blk 1 } := by
  have hcode : acceptCode 0x02 0x00 0x0000 s.blk = 1 := by rw [acceptCode_tcLoad, h]; rfl
  rw [exec, execTcLoad, Block.issue_reject hcode (by decide)]
  rfl

theorem exec_tcLoad_idle {s : State} (h : s.blk.busy = false) :
    exec .tcLoad s = .next (s.setBlk (s.blk.clearReject.tcLoad s.params)) := by
  have hcode : acceptCode 0x02 0x00 0x0000 s.blk = 0 := by rw [acceptCode_tcLoad, h]; rfl
  rw [exec, execTcLoad, Block.issue_accept hcode]

/-- TC_LOAD of a configuration that passes loads it (R205). -/
theorem exec_tcLoad_pass {s : State} (h : s.blk.busy = false)
    (hpass : validation s.params false s.blk = 0) {r : Rate} (hr : r.sel.toNat = bitsAt s.blk.cfg 0 3) :
    exec .tcLoad s = .next { s with blk := loaded s.blk r } := by
  obtain ⟨r', hr', hok⟩ := validate_ok (b := s.blk.clearReject) hpass
  obtain rfl : r' = r := Rate.sel_injective (BitVec.eq_of_toNat_eq (hr'.trans hr.symm))
  rw [exec_tcLoad_idle h, Block.tcLoad_ok hok]
  rfl

/-- Settles O23, by what validation answers; the configuration a passing TC_LOAD leaves is the one it
read, so a second TC_LOAD loads the same. -/
theorem tcLoadResult : Obligations.TcLoadResult := by
  intro s
  refine ⟨(commandFormatsAgree s 0x00000002).1 .tcLoad (by decide), exec_tcLoad_busy,
    fun hidle hfail => ?_, fun hidle hpass => ?_⟩
  · obtain ⟨e, herror, hcode, hkind⟩ := validate_error (b := s.blk.clearReject) hfail
    rw [exec_tcLoad_idle hidle, Block.tcLoad_error herror, Block.raise, hcode, hkind]
    rfl
  · obtain ⟨r, hr, -⟩ := validate_ok hpass
    exact ⟨r, hr, exec_tcLoad_pass hidle hpass hr,
      exec_tcLoad_pass (s := { s with blk := loaded s.blk r }) hidle hpass hr⟩

/-- Settles O24, by what the acceptance of TC_ADVANCE asks for. -/
theorem tcAdvanceResult : Obligations.TcAdvanceResult := by
  intro s
  refine ⟨(commandFormatsAgree s 0x00000003).1 .tcAdvance (by decide), fun hbusy => ?_,
    fun hidle hclk => ?_, fun hidle hclk => ?_⟩ <;> rw [exec, execTcAdvance]
  · have hcode : acceptCode 0x03 0x00 0x0000 s.blk = 1 := by
      rw [acceptCode_tcAdvance, hbusy, if_pos rfl]
    rw [Block.issue_reject hcode (by decide)]
    rfl
  · have hcode : acceptCode 0x03 0x00 0x0000 s.blk = 4 := by
      rw [acceptCode_tcAdvance, hidle, hclk, if_neg (by decide), if_neg (by decide)]
    rw [Block.issue_reject hcode (by decide)]
    rfl
  · have hcode : acceptCode 0x03 0x00 0x0000 s.blk = 0 := by
      rw [acceptCode_tcAdvance, hidle, hclk, if_neg (by decide), if_pos rfl]
    rw [Block.issue_accept hcode]
    rfl

end Sys2Proof.Machine
end

section
/-!
PROOF. The invariant of the machine (R91, R215, R268, R307, R345, R380, R390): each operation of the
block keeps it, and so does every step.
-/

namespace Sys2Proof.Machine

open Sys2Proof.Claims

/-! ### The block's part of the invariant -/

/-- The block's part of the invariant, clause by clause. -/
structure Block.Inv (p : Params) (b : Block) : Prop where
  reservedZero : b.ReservedZero
  clockOk : b.ClockOk p
  errorOk : b.ErrorOk
  rejectOk : b.RejectOk
  runOk : b.RunOk
  polarityOk : b.PolarityOk p
  syncOk : b.SyncOk

theorem State.inv_iff (s : State) : s.Inv ↔ s.blk.Inv s.params ∧ s.OutputOk := by
  constructor
  · rintro ⟨hreserved, hclock, herror, hreject, hrun, hpolarity, hsync, houtput⟩
    exact ⟨⟨hreserved, hclock, herror, hreject, hrun, hpolarity, hsync⟩, houtput⟩
  · rintro ⟨⟨hreserved, hclock, herror, hreject, hrun, hpolarity, hsync⟩, houtput⟩
    exact ⟨hreserved, hclock, herror, hreject, hrun, hpolarity, hsync, houtput⟩

/-- What of the invariant speaks of the fields a turn of EMIT's loop writes (R345). -/
def Block.FrameOk (p : Params) (b : Block) : Prop := b.ClockOk p ∧ b.PolarityOk p ∧ b.SyncOk

/-! ### An assembled frame -/

/-- An assembled frame holds an even number of 0 bits (R267). -/
theorem assembleFrame_zeros (t : Timecode) (r : Rate) (df cf : Bool) (U : Word) (G : BitVec 8) :
    zerosBelow (assembleFrame t r df cf U G) 80 % 2 = 0 :=
  putPolarity_zeros r _

/-- An assembled frame holds the sync word (R268). -/
theorem assembleFrame_sync (t : Timecode) (r : Rate) (df cf : Bool) (U : Word) (G : BitVec 8) :
    (assembleFrame t r df cf U G).extractLsb' 64 16 = BitVec.ofNat 16 syncWord := by
  refine BitVec.eq_of_getLsbD_eq fun i hi => ?_
  rw [BitVec.getLsbD_extractLsb', assembleFrame_high _ _ _ _ _ _ (by omega) (by omega),
    BitVec.getLsbD_ofNat, Nat.add_sub_cancel_left]

/-! ### Commands and register writes -/

section
variable {p : Params} {b : Block}

theorem Block.Inv.rejectCmd (h : b.Inv p) {c : BitVec 3} (hc : c ≠ 0) (hle : c.toNat ≤ 4) :
    (b.rejectCmd c).Inv p :=
  { h with rejectOk := ⟨hle, iff_of_true rfl hc⟩ }

theorem Block.Inv.clearReject (h : b.Inv p) : b.clearReject.Inv p :=
  { h with rejectOk := ⟨Nat.zero_le _, iff_of_false Bool.false_ne_true (fun hne => hne rfl)⟩ }

theorem Block.Inv.raise (h : b.Inv p) (e : ValError) : (b.raise e).Inv p :=
  { h with errorOk := .inr ⟨e, rfl, rfl⟩ }

theorem Block.Inv.clearDone (h : b.Inv p) : b.clearDone.Inv p := by
  obtain ⟨hle, hbusy, hrun⟩ := h.runOk
  refine { h with runOk := ⟨hle, hbusy, fun hb => ?_⟩ }
  obtain ⟨hclk, hsr, -, hframes⟩ := hrun hb
  exact ⟨hclk, hsr, rfl, hframes⟩

/-- Outside a run the clock may take any valid configuration (R205). -/
theorem Block.Inv.loadClock (h : b.Inv p) (hidle : b.busy = false) {c : ClockConfig}
    (hvalid : c.tc.valid p c.rate c.df = true) (hdf : c.df = true → c.rate.dfAllowed = true) :
    (b.loadClock c).Inv p := by
  obtain ⟨hle, hbusy, -⟩ := h.runOk
  exact { h with
    clockOk := ⟨fun _ => hvalid, hdf⟩
    errorOk := .inl ⟨rfl, rfl⟩
    runOk := ⟨hle, hbusy, fun hb => absurd (hidle.symm.trans hb) Bool.false_ne_true⟩ }

theorem Block.Inv.tcLoad (h : b.Inv p) (hidle : b.busy = false) : (b.tcLoad p).Inv p := by
  obtain ⟨e, he⟩ | ⟨c, hc, -, -, -, hvalid, hdf, -⟩ := validate_cases p false b
  · rw [Block.tcLoad_error he]; exact h.raise e
  · rw [Block.tcLoad_ok hc]; exact h.loadClock hidle hvalid hdf

/-- A run begins at sample 0 with no frame assembled, and is in progress unless its duration is 0
(R341). -/
theorem Block.Inv.beginRun (h : b.Inv p) (hidle : b.busy = false) (hdone : b.done = false)
    {c : ClockConfig} (hvalid : c.tc.valid p c.rate c.df = true)
    (hdf : c.df = true → c.rate.dfAllowed = true) (hsr : b.sampleRate ≠ 0) :
    (b.beginRun p c).Inv p := by
  have hrun : (b.beginRun p c).RunOk := by
    by_cases hn : b.duration = 0
    · have hstill : (b.beginRun p c).busy = false := (if_pos hn).trans hidle
      have hnone : ¬ 0 < b.duration.toNat := by simp [hn]
      exact ⟨Nat.zero_le _, iff_of_false (by simp [hstill]) hnone,
        fun hb => absurd (hstill.symm.trans hb) Bool.false_ne_true⟩
    · have hpos : 0 < b.duration.toNat := Nat.pos_of_ne_zero fun h0 => hn (BitVec.eq_of_toNat_eq h0)
      exact ⟨Nat.zero_le _, iff_of_true (if_neg hn) hpos,
        fun _ => ⟨rfl, hsr, (if_neg hn).trans hdone, rfl⟩⟩
  have hpol : (b.beginRun p c).PolarityOk p := ⟨rfl, h.polarityOk.2⟩
  exact { h.loadClock hidle hvalid hdf with runOk := hrun, polarityOk := hpol }

theorem Block.Inv.start (h : b.Inv p) (hidle : b.busy = false) : (b.start p).Inv p := by
  unfold Block.start
  obtain ⟨e, he⟩ | ⟨c, hc, -, -, -, hvalid, hdf, hsr⟩ := validate_cases p true b.clearDone
  · rw [he]; exact h.clearDone.raise e
  · rw [hc]; exact h.clearDone.beginRun hidle rfl hvalid hdf (hsr rfl)

/-- The clock stays valid as it advances (R215). -/
theorem Block.ClockOk.advance (h : b.ClockOk p) :
    Block.ClockOk p { b with clk := b.clk.advance p b.rate b.df } := by
  obtain ⟨hvalid, hdf⟩ := h
  exact ⟨fun hclk => Timecode.advance_valid hdf (hvalid hclk), hdf⟩

theorem Block.Inv.tcAdvance (h : b.Inv p) : (b.tcAdvance p).Inv p :=
  { h with clockOk := h.clockOk.advance }

theorem Block.Inv.assemble (h : b.Inv p) : b.assemble.Inv p :=
  { h with
    polarityOk := ⟨h.polarityOk.1, assembleFrame_zeros ..⟩
    syncOk := .inr (assembleFrame_sync ..) }

theorem Block.Inv.ubMerge (h : b.Inv p) (m : BitVec 4) : (b.ubMerge m).Inv p :=
  { h with }

theorem Block.Inv.command (h : b.Inv p) (v : Word) : (b.command p v).Inv p := by
  obtain ⟨c, hc, hle, e⟩ | ⟨-, e⟩ | ⟨-, hidle, e⟩ | ⟨-, hidle, e⟩ | ⟨-, -, -, e⟩ | ⟨-, -, -, e⟩ |
    ⟨m, -, e⟩ := Block.command_cases p v b <;> rw [e]
  · exact h.rejectCmd hc hle
  · exact h.clearReject
  · exact h.clearReject.start hidle
  · exact h.clearReject.tcLoad hidle
  · exact h.clearReject.tcAdvance
  · exact h.clearReject.assemble
  · exact h.clearReject.ubMerge m

/-- A write stores a masked word (R84, R172). -/
theorem Block.ReservedZero.writeWord (h : b.ReservedZero) (off : Offset) (v : Word) :
    (b.writeWord off v).ReservedZero := by
  obtain ⟨hcfg, htc, hbgf, hfield1⟩ := h
  have hmask (m : Word) : v &&& m &&& m = v &&& m := by rw [BitVec.and_assoc, BitVec.and_self]
  unfold Block.writeWord
  cases Reg.ofOffset off with
  | none => exact ⟨hcfg, htc, hbgf, hfield1⟩
  | some r =>
    cases r with
    | cfg => exact ⟨hmask _, htc, hbgf, hfield1⟩
    | tcStart => exact ⟨hcfg, hmask _, hbgf, hfield1⟩
    | bgf => exact ⟨hcfg, htc, hmask _, hfield1⟩
    | field1 => exact ⟨hcfg, htc, hbgf, hmask _⟩
    | _ => exact ⟨hcfg, htc, hbgf, hfield1⟩

theorem Block.Inv.writeWord (h : b.Inv p) (off : Offset) (v : Word) : (b.writeWord off v).Inv p := by
  have hreserved := h.reservedZero.writeWord off v
  rw [Block.writeWord_frame] at hreserved ⊢
  exact { h with reservedZero := hreserved }

/-! ### EMIT -/

/-- A turn of EMIT's loop hands the polarity over from an even frame, and the frame it assembles is
even and holds the sync word (R267, R268, R347). -/
theorem Block.FrameOk.nextFrame (h : b.FrameOk p) : (b.nextFrame p).FrameOk p := by
  obtain ⟨hclock, ⟨hpol, hzeros⟩, -⟩ := h
  exact ⟨hclock.advance, ⟨(Block.handoff_even hzeros).trans hpol, assembleFrame_zeros ..⟩,
    .inr (assembleFrame_sync ..)⟩

/-- The frames assembled for a sample are those up to its own (R346). -/
theorem Block.RunOk.assembleThrough_frames (h : b.RunOk) (hbusy : b.busy = true) :
    (b.assembleThrough p (b.halfBit / 160)).frames =
      framesFor b.rate b.runSr.toNat (b.samples + 1) := by
  obtain ⟨-, -, hrun⟩ := h
  obtain ⟨-, hsr, -, hframes⟩ := hrun hbusy
  have hpos : 0 < b.runSr.toNat := Nat.pos_of_ne_zero fun h0 => hsr (BitVec.eq_of_toNat_eq h0)
  have hle := framesFor_le b.rate hpos b.samples
  rw [Block.assembleThrough, Block.nextFrames_frames, framesFor_succ, Block.halfBit, hframes]
  omega

/-- A sample emitted keeps the invariant; the run goes on while samples are left (R345, R350). -/
theorem Block.Inv.countSample (h : b.Inv p) (hbusy : b.busy = true) (level : Bool) :
    ((b.assembleThrough p (b.halfBit / 160)).countSample level).Inv p := by
  have hframes := h.runOk.assembleThrough_frames (p := p) hbusy
  obtain ⟨-, hrunning, hrun⟩ := h.runOk
  obtain ⟨hclk, hsr, hdone, -⟩ := hrun hbusy
  have hleft := hrunning.mp hbusy
  unfold Block.assembleThrough at hframes ⊢
  generalize b.halfBit / 160 + 1 - b.frames = turns at hframes ⊢
  have hstart : b.FrameOk p := ⟨h.clockOk, h.polarityOk, h.syncOk⟩
  obtain ⟨hclock, hpolarity, hsync⟩ :=
    Block.nextFrames_induct (P := Block.FrameOk p) (fun _ => Block.FrameOk.nextFrame) turns hstart
  rw [Block.nextFrames_frame] at hclock
  rw [Block.countSample_eq hbusy]
  refine { h with clockOk := hclock, polarityOk := hpolarity, syncOk := hsync, runOk := ?_ }
  have hmore_iff : b.samples + 1 ≠ b.runN.toNat ↔ b.samples + 1 < b.runN.toNat := by omega
  refine ⟨hleft, decide_eq_true_iff.trans hmore_iff, fun hmore => ⟨hclk, hsr, ?_, hframes⟩⟩
  rw [hdone, Bool.false_or]
  exact decide_eq_false (of_decide_eq_true hmore)

end

/-! ### Every step -/

/-- A level is recorded as its sample is delivered (R348). -/
theorem State.OutputOk.emitLevel {s : State} (h : s.OutputOk) (level : Bool) :
    (s.emitLevel level).OutputOk := by
  obtain ⟨earlier, he⟩ := h
  exact ⟨earlier, by simp [← he]⟩

theorem State.Inv.emitSample {s : State} (h : s.Inv) (hbusy : s.blk.busy = true) :
    s.emitSample.Inv := by
  rw [State.inv_iff] at h ⊢
  exact ⟨h.1.countSample hbusy _, State.OutputOk.emitLevel (s := s.setBlk _) h.2 _⟩

theorem State.Inv.execEmit {s t : State} (h : s.Inv) (hexec : exec .emit s = .next t) : t.Inv := by
  obtain ⟨-, e⟩ | ⟨hbusy, -, e⟩ := execEmit_cases s
  · rwa [← next_injective (hexec.symm.trans e).symm]
  · rw [next_injective (hexec.symm.trans e)]
    exact h.emitSample hbusy

/-- Settles O56, by the cases of a step: a reset begins at the reset values, and with the reset input
low the invariant is kept by EMIT, by each command and by each register write. -/
theorem stepKeepsInvariant : Obligations.StepKeepsInvariant := by
  intro s t h hstep
  obtain ⟨-, rfl⟩ | ⟨x, rest, -, hx⟩ := step_cases hstep
  · exact h
  have hreach : (s.reach x rest).Inv := h
  obtain ⟨hblk, houtput⟩ := (State.inv_iff s).mp h
  obtain ⟨-, rfl⟩ | ⟨-, ⟨-, rfl⟩ | ⟨-, hemit⟩ | ⟨_, rfl⟩ | ⟨v, -, rfl⟩ | ⟨off, v, -, rfl⟩⟩ := hx
  · exact State.inv_of_atReset rfl rfl
  · exact hreach
  · exact hreach.execEmit hemit
  · exact hreach
  · exact (State.inv_iff _).mpr ⟨hblk.command v, houtput⟩
  · exact (State.inv_iff _).mpr ⟨hblk.writeWord off v, houtput⟩

end Sys2Proof.Machine
end

section
/-!
PROOF. User bits (spec/42_user_bits.md): the groups a merge supplies (R241), and the payload with the
field1 override, which ASSEMBLE places and START keeps (R243, R245).
-/

namespace Sys2Proof.Machine

open Sys2Proof.Claims

/-! ### The merge -/

/-- A group comes from `UB_STAGE` or from `UB` bit by bit (R241). -/
theorem mergedByte_getLsbD (m : BitVec 4) (ub stage : Word) (g : Nat) {j : Nat} (hj : j < 8) :
    (mergedByte m ub stage g).getLsbD j =
      if m.getLsbD g then stage.getLsbD (8 * g + j) else ub.getLsbD (8 * g + j) := by
  rw [mergedByte]
  split <;> rw [BitVec.getLsbD_extractLsb', decide_eq_true hj, Bool.true_and]

/-- Group `g` of a merged payload stands at `UB[8g+7:8g]` (R240). -/
theorem mergedUb_group (m : BitVec 4) (ub stage : Word) {g j : Nat} (hg : g < 4) (hj : j < 8) :
    (mergedUb m ub stage).getLsbD (8 * g + j) = (mergedByte m ub stage g).getLsbD j := by
  simp only [mergedUb, BitVec.getLsbD_append]
  interval_cases g
  · rw [if_pos (by omega), Nat.mul_zero, Nat.zero_add]
  · rw [if_neg (by omega), if_pos (by omega), Nat.add_sub_cancel_left]
  · rw [if_neg (by omega), if_neg (by omega), if_pos (by omega),
      show 8 * 2 + j - 8 - 8 = j by omega]
  · rw [if_neg (by omega), if_neg (by omega), if_neg (by omega),
      show 8 * 3 + j - 8 - 8 - 8 = j by omega]

/-- A bit of a merged payload, by the mask bit of its group. -/
theorem mergedUb_getLsbD (m : BitVec 4) (ub stage : Word) {i : Nat} (hi : i < 32) :
    (mergedUb m ub stage).getLsbD i =
      if m.getLsbD (i / 8) then stage.getLsbD i else ub.getLsbD i := by
  have hj : i % 8 < 8 := Nat.mod_lt i (by decide)
  have h := (mergedUb_group m ub stage (g := i / 8) (by omega) hj).trans
    (mergedByte_getLsbD m ub stage (i / 8) hj)
  rwa [Nat.div_add_mod] at h

/-- Settles O21: UB_MERGE is always accepted and its body is the merge, its word decodes to it, and
reserved bits in a word of opcode 5 fail the acceptance. -/
theorem ubMergeReplacesSuppliedGroups : Obligations.UbMergeReplacesSuppliedGroups := by
  refine fun s m => ⟨⟨mergedUb m s.blk.ub s.blk.ubStage, exec_ubMerge m s,
    fun i hi => mergedUb_getLsbD m _ _ hi⟩, ?_, fun v hop hbits => ?_⟩
  · rw [ubMerge_word]
    exact (commandFormatsAgree s _).1 (.ubMerge m) (decodeCommand_ubMerge m)
  · have hreserved : acceptance v s.blk.busy s.blk.clkValid = 3 :=
      acceptance_reservedBits hop.le (hbits.symm.imp_right fun h => .inl ⟨hop, h⟩) _ _
    rw [exec_regWrite_cmd, Block.command_rejected hreserved (by decide) (by decide)]
    rfl

/-! ### The field1 override -/

/-- The effective user bits by number: the override replaces the low nibble (R243). -/
theorem effectiveUb_toNat (ub field1 : Word) :
    (effectiveUb ub field1).toNat =
      if field1.getLsbD 8 then ub.toNat / 16 * 16 + field1.toNat % 16 else ub.toNat := by
  have := ub.isLt
  rw [effectiveUb, field1En]
  split
  · rw [append_toNat, field1Value, extract_toNat, extract_toNat]
    omega
  · rfl

/-- The low nibble of the effective user bits (R243). -/
theorem bitsAt_effectiveUb_low (ub field1 : Word) :
    bitsAt (effectiveUb ub field1) 0 4 =
      if field1.getLsbD 8 then bitsAt field1 0 4 else bitsAt ub 0 4 := by
  simp only [bitsAt, effectiveUb_toNat]
  split <;> omega

/-- The override stays within the low nibble (R243). -/
theorem bitsAt_effectiveUb_high (ub field1 : Word) {lo : Nat} (h : 4 ≤ lo) (n : Nat) :
    bitsAt (effectiveUb ub field1) lo n = bitsAt ub lo n := by
  have hhigh : (effectiveUb ub field1).toNat / 2 ^ 4 = ub.toNat / 2 ^ 4 := by
    rw [effectiveUb_toNat]
    split <;> omega
  obtain ⟨k, rfl⟩ := Nat.exists_eq_add_of_le h
  rw [bitsAt, bitsAt, Nat.pow_add, ← Nat.div_div_eq_div_mul, ← Nat.div_div_eq_div_mul, hhigh]

/-- The override by masks: all of a word but its low nibble, and the low nibble of another. -/
theorem append_nibble_eq_masks (x y : Word) :
    x.extractLsb' 4 28 ++ y.extractLsb' 0 4 = (x &&& 0xFFFFFFF0) ||| (y &&& 0xF) := by
  have hmask : ∀ i < 32, (0xFFFFFFF0 : Word).getLsbD i = !decide (i < 4) ∧
      (0xF : Word).getLsbD i = decide (i < 4) := by decide
  refine BitVec.eq_of_getLsbD_eq fun i hi => ?_
  obtain ⟨hhigh, hlow⟩ := hmask i hi
  rw [BitVec.getLsbD_append, BitVec.getLsbD_or, BitVec.getLsbD_and, BitVec.getLsbD_and, hhigh, hlow]
  by_cases h4 : i < 4
  · simp [h4]
  · have hsub : i - 4 < 28 := by omega
    simp [h4, hsub, Nat.add_sub_cancel' (not_lt.mp h4)]

/-- The effective user bits of the model are those of the statements (R243). -/
theorem effectiveUb_eq_ube (b : Block) : effectiveUb b.ub b.field1 = ube b :=
  ite_congr rfl (fun _ => append_nibble_eq_masks b.ub b.field1) fun _ => rfl

/-! ### ASSEMBLE and START -/

/-- ASSEMBLE with no run in progress and a loaded clock (R270). -/
theorem exec_assemble_accept {s : State} (hidle : s.blk.busy = false)
    (hclk : s.blk.clkValid = true) :
    exec .assemble s = .next (s.setBlk s.blk.clearReject.assemble) := by
  have hcode : acceptCode 0x04 0x00 0x0000 s.blk = 0 := by
    rw [acceptCode_assemble, hidle, hclk, if_neg (by decide), if_pos rfl]
  rw [exec, execAssemble, Block.issue_accept hcode]

/-- START with no run in progress, of a configuration that passes: a run of it begins (R341). -/
theorem exec_start_pass {s : State} (hidle : s.blk.busy = false)
    (hpass : validation s.params true s.blk = 0) :
    ∃ r : Rate, r.sel.toNat = bitsAt s.blk.cfg 0 3 ∧
      exec .start s = .next (s.setBlk (s.blk.clearReject.clearDone.beginRun s.params
        { rate := r, df := decide (bitsAt s.blk.cfg 4 1 = 1), tc := startTc s.blk })) := by
  obtain ⟨r, hr, hok⟩ := validate_ok (b := s.blk.clearReject.clearDone) hpass
  have hcode : acceptCode 0x01 0x00 0x0000 s.blk = 0 := by rw [acceptCode_start, hidle]; rfl
  refine ⟨r, hr, ?_⟩
  rw [exec, execStart, Block.issue_accept hcode, Block.start, hok]
  rfl

/-- The frame an assembly leaves carries the effective user bits (R130, R270). -/
theorem Block.assemble_userBits (b : Block) {k : Nat} (hk : 1 ≤ k) (hk8 : k ≤ 8) :
    fieldOf b.assemble.frame (8 * k - 4) 4 = bitsAt (effectiveUb b.ub b.field1) (4 * k - 4) 4 :=
  fieldOf_userBits b.clk b.rate b.df (cfgCf b.cfg) (effectiveUb b.ub b.field1) (bgfFlags b.bgf) hk hk8

/-- Settles O38: the fields of the assembled frame are the nibbles of the effective user bits, of which
the override reaches the first alone; and a run begins with the same payload. -/
theorem field1OverridesFirstNibble : Obligations.Field1OverridesFirstNibble := by
  refine fun s t hidle hclk => ⟨fun h => ?_, fun h hpass => ?_⟩
  · obtain rfl := next_injective ((exec_assemble_accept hidle hclk).symm.trans h)
    refine ⟨?_, fun k hk hk8 => ?_⟩
    · rw [← bitsAt_effectiveUb_low]
      exact s.blk.clearReject.assemble_userBits (k := 1) (by decide) (by decide)
    · rw [← bitsAt_effectiveUb_high _ s.blk.field1 (by omega)]
      exact s.blk.clearReject.assemble_userBits (by omega) hk8
  · obtain ⟨r, -, hstart⟩ := exec_start_pass hidle hpass
    obtain rfl := next_injective (hstart.symm.trans h)
    exact effectiveUb_eq_ube s.blk

end Sys2Proof.Machine
end

section
/-!
PROOF. The frame assembler (spec/43_frame_assembler.md): the sync word and where else its pattern can
stand (R268, R271), the parity of a frame (R267), and ASSEMBLE (R270).
-/

namespace Sys2Proof.Machine

open Sys2Proof.Claims

/-! ### The sync word -/

/-- The sync word of the model is that of the statements (R127). -/
theorem syncWord_testBit {i : Nat} (hi : i < 16) : syncWord.testBit i = syncBits.getD i false := by
  have h : ∀ i < 16, syncWord.testBit i = syncBits.getD i false := by decide
  exact h i hi

/-- Settles O34: the sync word is put last but for the polarity correction, which stands below it. -/
theorem syncWordIsFinalSixteenBits : Obligations.SyncWordIsFinalSixteenBits := by
  intro t r df cf U G i hi
  rw [assembleFrame_high t r df cf U G (Nat.le_add_right 64 i) (by omega), Nat.add_sub_cancel_left,
    syncWord_testBit hi]

/-! ### The parity of a frame -/

/-- The XOR of a frame's bits as a fold over a list of positions. -/
theorem foldl_xor_range (F : FrameBits) (pc n : Nat) (b : Bool) :
    ((List.range n).filter (· ≠ pc)).foldl (fun x i => x ^^ F.getLsbD i) b =
      (b ^^ xorExcept F pc n) := by
  induction n with
  | zero => simp [xorExcept]
  | succ n ih =>
    rw [List.range_succ, List.filter_append, List.foldl_append, ih, xorExcept]
    by_cases h : n = pc <;> simp [h]

/-- The XOR of a frame's bits, split where a word `G` begins. -/
theorem xorExcept_add {F G : FrameBits} {pc m pc' n : Nat} (hpc : pc < m) (hpc' : n ≤ pc')
    (h : ∀ i < n, F.getLsbD (m + i) = G.getLsbD i) :
    xorExcept F pc (m + n) = (xorExcept F pc m ^^ xorExcept G pc' n) := by
  induction n with
  | zero => rw [Nat.add_zero, xorExcept.eq_1 G, Bool.xor_false]
  | succ n ih =>
    rw [← Nat.add_assoc, xorExcept, ih (by omega) fun i hi => h i (by omega), xorExcept,
      if_neg (by omega), if_neg (by omega), h n (by omega), Bool.xor_assoc]

/-- The polarity-correction bit of an assembled frame (R267). -/
theorem assembleFrame_pcPos (t : Timecode) (r : Rate) (df cf : Bool) (U : Word) (G : BitVec 8) :
    (assembleFrame t r df cf U G).getLsbD r.pcPos =
      xorExcept (assembleFrame t r df cf U G) r.pcPos 80 :=
  putPolarity_self r _

/-- The sync word holds an odd number of 1 bits (R127). -/
theorem xorExcept_syncWord : xorExcept (BitVec.ofNat 80 syncWord) 16 16 = true := by decide

/-- So the sync word inverts the XOR of an assembled frame's data bits. -/
theorem xorExcept_assembleFrame (t : Timecode) (r : Rate) (df cf : Bool) (U : Word) (G : BitVec 8) :
    xorExcept (assembleFrame t r df cf U G) r.pcPos 80 =
      !xorExcept (assembleFrame t r df cf U G) r.pcPos 64 := by
  have hsplit := xorExcept_add (F := assembleFrame t r df cf U G) (G := BitVec.ofNat 80 syncWord)
    (n := 16) (Rate.pcPos_lt r) le_rfl fun i hi => by
      rw [assembleFrame_high t r df cf U G (Nat.le_add_right 64 i) (by omega), Nat.add_sub_cancel_left,
        BitVec.getLsbD_ofNat, decide_eq_true (show i < 80 by omega), Bool.true_and]
  rw [hsplit, xorExcept_syncWord, Bool.xor_true]

/-- The count of 0 bits as a count over the positions. -/
theorem countP_zeros (F : FrameBits) (n : Nat) :
    (List.range n).countP (fun i => !F.getLsbD i) = zerosBelow F n := by
  induction n with
  | zero => rfl
  | succ n ih =>
    rw [List.range_succ, List.countP_append, ih, zerosBelow]
    cases h : F.getLsbD n <;> simp [h]

/-- Settles O35: the correction bit is the XOR of the others, which the sync word inverts; so the 0
bits are even in number, and the 1 bits are the rest of 80. -/
theorem polarityCorrectionMakesCountsEven : Obligations.PolarityCorrectionMakesCountsEven := by
  rintro t r df cf U G F pc rfl hpc
  obtain rfl : pc = r.pcPos := by rw [hpc]; cases r <;> rfl
  have hself := assembleFrame_pcPos t r df cf U G
  have hzeros := assembleFrame_zeros t r df cf U G
  rw [← countP_zeros] at hzeros
  have htotal := List.length_eq_countP_add_countP
    (p := fun i => (assembleFrame t r df cf U G).getLsbD i) (l := List.range 80)
  refine ⟨?_, ?_, ?_, hzeros⟩
  · rw [foldl_xor_range, Bool.false_xor, hself]
  · rw [foldl_xor_range, Bool.true_xor, hself, xorExcept_assembleFrame]
  · simp only [List.length_range, Bool.not_eq_true, Bool.decide_eq_false] at htotal
    omega

/-! ### The sync pattern inside the data bits -/

/-- A window holds the sync pattern exactly where it reads as the sync word. -/
theorem syncAt_iff_fieldOf (F : FrameBits) (w : Nat) : syncAt F w ↔ fieldOf F w 16 = syncWord := by
  constructor
  · exact fun h => fieldOf_eq (by decide) fun i hi => by rw [h i hi, syncWord_testBit hi]
  · intro h i hi
    rw [← fieldOf_testBit F w hi, h, syncWord_testBit hi]

/-- A window with the pattern holds twelve 1 bits in a row (R127). -/
theorem ones_of_syncAt {F : FrameBits} {w j : Nat} (h : syncAt F w) (hj : w + 2 ≤ j)
    (hj' : j ≤ w + 13) : F.getLsbD j = true := by
  have hones : ∀ i < 16, 2 ≤ i → i ≤ 13 → syncBits.getD i false = true := by decide
  rw [← Nat.add_sub_of_le (show w ≤ j by omega), h (j - w) (by omega)]
  exact hones (j - w) (by omega) (by omega) (by omega)

/-- A field too small to have both top bits set: after a 1 bit in the lower of them stands a 0 bit. -/
theorem not_top_bits_of_fieldOf_lt {F : FrameBits} {p n : Nat} (h : fieldOf F p (n + 2) < 3 * 2 ^ n)
    (h0 : F.getLsbD (p + n) = true) : F.getLsbD (p + (n + 1)) = false := by
  rw [← fieldOf_testBit F p (show n < n + 2 by omega), Nat.testBit_eq_decide_div_mod_eq,
    decide_eq_true_iff] at h0
  rw [← fieldOf_testBit F p (show n + 1 < n + 2 by omega), Nat.testBit_eq_decide_div_mod_eq,
    decide_eq_false_iff_not, Nat.pow_succ, ← Nat.div_div_eq_div_mul]
  have hq := (Nat.div_lt_iff_lt_mul (Nat.two_pow_pos n)).mpr h
  generalize fieldOf F p (n + 2) / 2 ^ n = q at h0 hq ⊢
  omega

/-- A 0 bit that the run of twelve 1 bits would reach lies before it. -/
theorem lt_start_of_zero {F : FrameBits} {w j : Nat} (hsync : syncAt F w) (hzero : F.getLsbD j = false)
    (hj : j ≤ w + 13) : j < w + 2 := by
  by_contra! hstart
  exact Bool.false_ne_true (hzero.symm.trans (ones_of_syncAt hsync hstart hj))

/-- So do the two top bits of a field too small to have both set. -/
theorem lt_start_of_fieldOf_lt {F : FrameBits} {w : Nat} (hsync : syncAt F w) (p n : Nat)
    (h : fieldOf F p (n + 2) < 3 * 2 ^ n) (hj : p + n < w + 13) : p + n < w + 2 := by
  cases hbit : F.getLsbD (p + n) with
  | false => exact lt_start_of_zero hsync hbit hj.le
  | true =>
    have hnext := lt_start_of_zero hsync (not_top_bits_of_fieldOf_lt h hbit) (by omega)
    omega

/-- A flag bit of a frame as a number. -/
theorem fieldOf_bit {F : FrameBits} {j : Nat} {x : Bool} (h : F.getLsbD j = x) :
    fieldOf F j 1 = x.toNat := by
  refine fieldOf_eq (by cases x <;> decide) fun i hi => ?_
  obtain rfl : i = 0 := by omega
  rw [Nat.add_zero, h]
  cases x <;> rfl

/-- The first 24 bits of a frame by their fields (R126). -/
theorem toNat_mod_eq_fields (F : FrameBits) :
    F.toNat % 2 ^ 24 = fieldOf F 0 4 + 2 ^ 4 * fieldOf F 4 4 + 2 ^ 8 * fieldOf F 8 2 +
      2 ^ 10 * fieldOf F 10 1 + 2 ^ 11 * fieldOf F 11 1 + 2 ^ 12 * fieldOf F 12 4 +
      2 ^ 16 * fieldOf F 16 4 + 2 ^ 20 * fieldOf F 20 4 := by
  simp only [fieldOf, extract_toNat]
  omega

/-- Only 59.94 fps allows drop-frame and counts more than 30 frames a second (R118, R121). -/
theorem Rate.eq_fps5994 {r : Rate} (hdf : r.dfAllowed = true) (h : 30 < r.nominal) :
    r = .fps5994 := by
  revert hdf h
  cases r <;> decide

/-- R271's table: window start `w`, frame units `a`, user nibbles `b`, `d` and `g`, seconds units `e`. -/
def SyncTable (w a b d e g : Nat) : Prop :=
  (w = 1 ∧ 8 ≤ a ∧ b = 0xF ∧ d = 0x7 ∧ e % 2 = 1) ∨
    (w = 2 ∧ a ≤ 3 ∧ b = 0xF ∧ d = 0xF ∧ (e = 2 ∨ e = 6)) ∨
    (w = 3 ∧ a ≤ 7 ∧ b = 0xE ∧ d = 0xF ∧ e = 5) ∨
    (w = 5 ∧ (b = 0x8 ∨ b = 0x9) ∧ d = 0xF ∧ e = 7 ∧ g % 2 = 1)

theorem SyncTable.start {w a b d e g : Nat} (h : SyncTable w a b d e g) : 1 ≤ w ∧ w ≤ 5 := by
  unfold SyncTable at h
  omega

/-- The table describes every number whose low 24 bits are such fields, with 1 bits in the frame tens
and the two flags beside them. -/
theorem window_eq_syncWord_iff {x w a b d e g : Nat} (ha : a < 10) (hb : b < 16) (hd : d < 16)
    (he : e < 10)
    (hx : x % 2 ^ 24 = a + 2 ^ 4 * b + 2 ^ 8 * 3 + 2 ^ 10 * 1 + 2 ^ 11 * 1 + 2 ^ 12 * d +
      2 ^ 16 * e + 2 ^ 20 * g) (hw1 : 1 ≤ w) (hw5 : w ≤ 5) :
    x / 2 ^ w % 2 ^ 16 = syncWord ↔ SyncTable w a b d e g := by
  rw [syncWord, SyncTable]
  interval_cases w <;>
    simp only [Nat.reduceEqDiff, true_and, false_and, or_false, false_or, iff_false] <;> omega

theorem bitsAt_lt (v : Word) (lo n : Nat) : bitsAt v lo n < 2 ^ n := Nat.mod_lt _ (Nat.two_pow_pos n)

section
variable {p : Params} {t : Timecode} {r : Rate} {df cf : Bool} {U : Word} {G : BitVec 8} {w : Nat}

/-- Inside the data bits the pattern starts at bits 1 to 5 alone: from bit 6 on its run of 1 bits
meets the seconds, the minutes, the hours or the 0 bits the sync word begins with. -/
theorem syncAt_start (hvalid : t.valid p r df = true) (hw : w < 64)
    (hsync : syncAt (assembleFrame t r df cf U G) w) : 1 ≤ w ∧ w ≤ 5 := by
  obtain ⟨hh, hm, hs, -, -⟩ := (Timecode.valid_iff p r df t).mp hvalid
  obtain ⟨h0, -, h16, h24, h32, h40, h48, h56⟩ := fieldOf_digits t r df cf U G hh hm hs
  have hframe : 0 + 2 < w + 2 := lt_start_of_fieldOf_lt hsync 0 2 (by rw [h0]; omega) (by omega)
  refine ⟨by omega, Nat.le_of_not_lt fun h6 => ?_⟩
  have hsecond : 16 + 2 < w + 2 := lt_start_of_fieldOf_lt hsync 16 2 (by rw [h16]; omega) (by omega)
  have hsecondTens : 24 + 1 < w + 2 := lt_start_of_fieldOf_lt hsync 24 1 (by rw [h24]; omega) (by omega)
  have hminute : 32 + 2 < w + 2 := lt_start_of_fieldOf_lt hsync 32 2 (by rw [h32]; omega) (by omega)
  have hminuteTens : 40 + 1 < w + 2 := lt_start_of_fieldOf_lt hsync 40 1 (by rw [h40]; omega) (by omega)
  have hhour : 48 + 2 < w + 2 := lt_start_of_fieldOf_lt hsync 48 2 (by rw [h48]; omega) (by omega)
  have hhourTens : 56 + 0 < w + 2 := lt_start_of_fieldOf_lt hsync 56 0 (by rw [h56]; omega) (by omega)
  have hsyncWord : ∀ j, 64 ≤ j → j < 66 → (assembleFrame t r df cf U G).getLsbD j = false := by
    intro j hj hj'
    rw [assembleFrame_high t r df cf U G hj (by omega)]
    interval_cases j <;> decide
  have hsync0 : 64 < w + 2 := lt_start_of_zero hsync (hsyncWord 64 (by decide) (by decide)) (by omega)
  have hsync1 : 65 < w + 2 := lt_start_of_zero hsync (hsyncWord 65 (by decide) (by decide)) (by omega)
  omega

/-- A window at bits 1 to 5 with the pattern covers the frame tens and the two flags beside them
with 1 bits, which only 59.94 fps in drop mode allows. -/
theorem rate_of_syncAt (hdf : df = true → r.dfAllowed = true) (hvalid : t.valid p r df = true)
    (hw1 : 1 ≤ w) (hw5 : w ≤ 5) (hsync : syncAt (assembleFrame t r df cf U G) w) :
    r = .fps5994 ∧ df = true ∧ cf = true ∧ t.f / 10 = 3 := by
  obtain ⟨hh, hm, hs, hf, -⟩ := (Timecode.valid_iff p r df t).mp hvalid
  obtain ⟨-, htens, -⟩ := fieldOf_digits t r df cf U G hh hm hs
  obtain ⟨hbit10, hbit11, -⟩ := assembleFrame_flags t r df cf U G
  have hdrop : df = true := hbit10.symm.trans (ones_of_syncAt hsync (by omega) (by omega))
  have hcolour : cf = true := hbit11.symm.trans (ones_of_syncAt hsync (by omega) (by omega))
  have hthree : ¬ t.f / 10 % 4 < 3 := fun hlt => by
    have := lt_start_of_fieldOf_lt hsync 8 0 (htens.trans_lt hlt) (by omega)
    omega
  have hrate : r = .fps5994 := Rate.eq_fps5994 (hdf hdrop) (by omega)
  have hf60 := hf.trans_le r.nominal_le
  exact ⟨hrate, hdrop, hcolour, by omega⟩

/-- With 1 bits in the frame tens and the two flags beside them, the windows at bits 1 to 5 hold the
pattern under the conditions of R271's table. -/
theorem syncAt_iff_table (hvalid : t.valid p r df = true) (hdf : df = true) (hcf : cf = true)
    (htens : t.f / 10 = 3) (hw1 : 1 ≤ w) (hw5 : w ≤ 5) :
    syncAt (assembleFrame t r df cf U G) w ↔
      SyncTable w (t.f % 10) (bitsAt U 0 4) (bitsAt U 4 4) (t.s % 10) (bitsAt U 8 4) := by
  obtain ⟨hh, hm, hs, -, -⟩ := (Timecode.valid_iff p r df t).mp hvalid
  obtain ⟨h0, h8, h16, -⟩ := fieldOf_digits t r df cf U G hh hm hs
  obtain ⟨hbit10, hbit11, -⟩ := assembleFrame_flags t r df cf U G
  have hfields := toNat_mod_eq_fields (assembleFrame t r df cf U G)
  rw [h0, h8, h16, htens, fieldOf_bit (hbit10.trans hdf), fieldOf_bit (hbit11.trans hcf),
    fieldOf_userBits t r df cf U G (k := 1) (by decide) (by decide),
    fieldOf_userBits t r df cf U G (k := 2) (by decide) (by decide),
    fieldOf_userBits t r df cf U G (k := 3) (by decide) (by decide)] at hfields
  rw [syncAt_iff_fieldOf, fieldOf, extract_toNat]
  exact window_eq_syncWord_iff (Nat.mod_lt _ (by decide)) (bitsAt_lt U 0 4) (bitsAt_lt U 4 4)
    (Nat.mod_lt _ (by decide)) hfields hw1 hw5

end

/-- Settles O40: the digits and the sync word leave the windows at bits 1 to 5, those need 59.94 fps in
drop mode, the colour flag and frame tens 3, and there the fields say the rest. -/
theorem syncPatternInDataBits : Obligations.SyncPatternInDataBits := by
  intro p t r df cf U G w hdf hvalid hw
  have hodd : t.s % 2 = t.s % 10 % 2 := by omega
  rw [hodd]
  constructor
  · intro hsync
    obtain ⟨hw1, hw5⟩ := syncAt_start hvalid hw hsync
    obtain ⟨hrate, hdrop, hcolour, htens⟩ := rate_of_syncAt hdf hvalid hw1 hw5 hsync
    exact ⟨hrate, hdrop, hcolour, htens,
      (syncAt_iff_table hvalid hdrop hcolour htens hw1 hw5).mp hsync⟩
  · rintro ⟨-, hdrop, hcolour, htens, htable⟩
    obtain ⟨hw1, hw5⟩ := SyncTable.start htable
    exact (syncAt_iff_table hvalid hdrop hcolour htens hw1 hw5).mpr htable

/-! ### ASSEMBLE -/

/-- ASSEMBLE that the acceptance rejects (R176, R270). -/
theorem exec_assemble_reject {s : State} {code : Nat}
    (hcode : acceptCode 0x04 0x00 0x0000 s.blk = BitVec.ofNat 3 code)
    (hne : BitVec.ofNat 3 code ≠ 0) :
    exec .assemble s = .next { s with blk := rejected s.blk code } := by
  rw [exec, execAssemble, Block.issue_reject hcode hne]
  rfl

/-- `BGF.FLAGS` by number (R36). -/
theorem bgfFlags_eq_bitsAt (v : Word) : bgfFlags v = BitVec.ofNat 8 (bitsAt v 0 8) := by
  rw [bitsAt, ← extract_toNat, BitVec.ofNat_toNat, BitVec.setWidth_eq, bgfFlags]

/-- Settles O25, by what the acceptance of ASSEMBLE asks for; its operands are the fields of the
registers. -/
theorem assembleResult : Obligations.AssembleResult := by
  intro s
  refine ⟨(commandFormatsAgree s 0x00000004).1 .assemble (by decide), fun hbusy => ?_,
    fun hidle hclk => ?_, fun hidle hclk => ?_⟩
  · exact exec_assemble_reject (by rw [acceptCode_assemble, hbusy]; rfl) (by decide)
  · exact exec_assemble_reject (by rw [acceptCode_assemble, hidle, hclk]; rfl) (by decide)
  · rw [exec_assemble_accept hidle hclk, ← bgfFlags_eq_bitsAt, ← effectiveUb_eq_ube]
    rfl

end Sys2Proof.Machine
end

section
/-!
PROOF. The biphase-mark modulator (R302 to R313): the levels and transitions of a bit, the polarity at
the end of an assembled frame, and the sample grid with its accumulator and its sample counts.
-/

namespace Sys2Proof.Machine

open Sys2Proof.Claims

/-! ### Levels and transitions -/

/-- Settles O41, by the polarity recurrence and the two half-bits of a bit. -/
theorem halfBitLevels : Obligations.HalfBitLevels := by
  intro F P
  refine ⟨polAtBit_zero F P, fun i _ => ⟨polAtBit_succ F P i, halfLevel_first .doc F P i,
    halfLevel_second .doc F P i, ?_, halfLevel_second .smpte F P i⟩⟩
  rw [halfLevel_first, bitLevel]
  simp

/-- The level before bit `i`, `L(2i - 1)` with `L(-1) = P`, is the polarity before it (R305). -/
theorem levelBefore_eq_polAtBit (c : BmcConvention) (F : FrameBits) (P : Bool) (i : Nat) :
    (if i = 0 then P else halfLevel c F P (2 * i - 1)) = polAtBit F P i := by
  cases i with
  | zero => simp
  | succ i => exact halfLevel_second c F P i

/-- Where the start of a bit has a transition (R305). -/
theorem bitLevel_first_ne_iff (c : BmcConvention) (P x : Bool) :
    bitLevel c P x false ≠ P ↔ (c = .smpte ∨ x = true) := by
  cases c <;> cases P <;> simp [bitLevel]

/-- Where the midpoint of a bit has a transition (R305). -/
theorem bitLevel_second_ne_iff (c : BmcConvention) (P x : Bool) :
    (P ^^ x ^^ true) ≠ bitLevel c P x false ↔ (c = .doc ∨ x = true) := by
  cases c <;> cases P <;> simp [bitLevel]

/-- Settles O42, by the transitions of one bit from the polarity before it. -/
theorem transitionsCarryTheBits : Obligations.TransitionsCarryTheBits := by
  intro c F P
  refine ⟨fun i _ => ?_, halfLevel_second c F P 79⟩
  rw [levelBefore_eq_polAtBit, halfLevel_second, halfLevel_first, polAtBit_succ]
  exact ⟨bitLevel_first_ne_iff .., bitLevel_second_ne_iff ..⟩

/-- A frame with an even number of 0 bits ends at the polarity it was entered at (R309). -/
theorem endPol_of_even {F : FrameBits} (h : zerosBelow F 80 % 2 = 0) (P : Bool) : endPol F P = P := by
  simp [endPol, polAtBit, h]

/-- Settles O43, by the even count of 0 bits of an assembled frame. -/
theorem assembledFrameKeepsPolarity : Obligations.AssembledFrameKeepsPolarity :=
  fun t r df cf U G => endPol_of_even (assembleFrame_zeros t r df cf U G)

/-! ### The sample grid -/

/-- A sample is at or after half-bit `j` exactly from that half-bit's first sample on (R311). -/
theorem le_halfBitOf_iff (r : Rate) {sr : Nat} (hsr : 0 < sr) (j s : Nat) :
    j ≤ halfBitOf r sr s ↔ firstSample r sr j ≤ s := by
  rw [halfBitOf_pos r hsr, Nat.le_div_iff_mul_le (gridK_pos r hsr), firstSample,
    ceilDiv_le (gridD_pos r)]

/-- A frame starts with the first sample of its half-bit 0 (R311). -/
theorem firstSample_frame (r : Rate) (sr k : Nat) :
    firstSample r sr (160 * k) = samplesOfFrames r sr k := by
  have hscale : 160 * k * gridK r sr = k * sr * r.den * 160 := by rw [gridK]; ring
  rw [firstSample, samplesOfFrames, hscale, gridD, Nat.mul_comm 160 r.num,
    ceilDiv_mul_right (by decide) (Rate.num_pos r)]

/-- Settles O44, by the sample from which on a half-bit has begun. -/
theorem gridBoundaries : Obligations.GridBoundaries := by
  intro r sr hsr
  refine ⟨fun j s => ?_, firstSample_frame r sr, fun k s => ?_⟩
  · have hstart := le_halfBitOf_iff r hsr j s
    have hend := le_halfBitOf_iff r hsr (j + 1) s
    omega
  · have hframe := le_halfBitOf_iff r hsr (160 * k) s
    rw [firstSample_frame] at hframe
    omega

/-! ### The accumulator -/

/-- The invariant of the accumulator (R312). -/
theorem GridAcc.before_spec {K : Nat} (hK : 0 < K) (D s : Nat) :
    (GridAcc.before K D s).acc < K ∧
      (GridAcc.before K D s).j * K + (GridAcc.before K D s).acc = s * D := by
  induction s with
  | zero => exact ⟨hK, by simp [GridAcc.before]⟩
  | succ s ih =>
    obtain ⟨hlt, hsum⟩ := GridAcc.carry_spec hK ((GridAcc.before K D s).acc + D)
      { GridAcc.before K D s with acc := (GridAcc.before K D s).acc + D } (Nat.le_refl _)
    exact ⟨hlt, hsum.trans (by rw [← Nat.add_assoc, ih.2, Nat.succ_mul])⟩

/-- Settles O45: by its invariant the accumulator holds quotient and remainder of `s x D` by `K`. -/
theorem accumulatorComputesGrid : Obligations.AccumulatorComputesGrid := by
  intro r sr s hsr
  obtain ⟨hlt, hsum⟩ := GridAcc.before_spec (gridK_pos r hsr) (gridD r) s
  refine ⟨?_, hsum.symm, hlt⟩
  rw [halfBitOf_pos r hsr, ← hsum, Nat.mul_comm, Nat.mul_add_div (gridK_pos r hsr),
    Nat.div_eq_of_lt hlt, Nat.add_zero]

/-! ### Sample counts -/

theorem le_ceilDiv_mul (a : Nat) {b : Nat} (hb : 0 < b) : a ≤ ceilDiv a b * b :=
  (ceilDiv_le hb).mp (Nat.le_refl _)

theorem ceilDiv_mul_lt (a : Nat) {b : Nat} (hb : 0 < b) : ceilDiv a b * b < a + b :=
  calc ceilDiv a b * b ≤ a + b - 1 := Nat.div_mul_le_self (a + b - 1) b
    _ < a + b := by omega

/-- A ceiling is the floor or one above it. -/
theorem ceilDiv_le_div_add_one (c : Nat) {b : Nat} (hb : 0 < b) : ceilDiv c b ≤ c / b + 1 :=
  (ceilDiv_le hb).mpr (Nat.lt_mul_of_div_lt (Nat.lt_succ_self _) hb).le

/-- A step of `c` raises a ceiling by the floor of `c / b` at least. -/
theorem ceilDiv_add_div_le (a c : Nat) {b : Nat} (hb : 0 < b) :
    ceilDiv a b + c / b ≤ ceilDiv (a + c) b := by
  rw [ceilDiv, ceilDiv, show a + c + b - 1 = a + b - 1 + c by omega]
  exact Nat.div_add_div_le_add_div

/-- A step of `c` raises a ceiling by the ceiling of `c / b` at most. -/
theorem ceilDiv_add_le (a c : Nat) {b : Nat} (hb : 0 < b) :
    ceilDiv (a + c) b ≤ ceilDiv a b + ceilDiv c b := by
  rw [ceilDiv_le hb, Nat.add_mul]
  exact Nat.add_le_add (le_ceilDiv_mul a hb) (le_ceilDiv_mul c hb)

theorem samplesOfFrames_eq (r : Rate) (sr k : Nat) :
    samplesOfFrames r sr k = ceilDiv (k * (sr * r.den)) r.num := by
  rw [samplesOfFrames, Nat.mul_assoc]

/-- Settles O46: a ceiling is less than 1 above the exact count, and one more frame raises it by the
floor or the ceiling of the count per frame. -/
theorem sampleCountsDoNotDrift : Obligations.SampleCountsDoNotDrift := by
  intro r sr k
  have hnum := Rate.num_pos r
  simp only [samplesOfFrames_eq]
  refine ⟨le_ceilDiv_mul _ hnum, ceilDiv_mul_lt _ hnum, ?_⟩
  rw [Nat.succ_mul]
  have hlow := ceilDiv_add_div_le (k * (sr * r.den)) (sr * r.den) hnum
  have hhigh := ceilDiv_add_le (k * (sr * r.den)) (sr * r.den) hnum
  have hgap := ceilDiv_le_div_add_one (sr * r.den) hnum
  omega

end Sys2Proof.Machine
end

section
/-!
PROOF. START and EMIT (spec/45_waveform_generation.md): the run a START begins or does not begin (R341,
R384), the one sample of an EMIT (R345), the end of a run (R350), and what reset leaves of the agents
around the block (R348).
-/

namespace Sys2Proof.Machine

open Sys2Proof.Claims

/-! ### START -/

/-- START with no run in progress is its body, after the bookkeeping (R175, R341). -/
theorem exec_start_idle {s : State} (hidle : s.blk.busy = false) :
    exec .start s = .next (s.setBlk (s.blk.clearReject.start s.params)) := by
  have hcode : acceptCode 0x01 0x00 0x0000 s.blk = 0 := by rw [acceptCode_start, hidle]; rfl
  rw [exec, execStart, Block.issue_accept hcode]

theorem Block.start_error {p : Params} {b : Block} {e : ValError}
    (h : validate p true b.clearDone = .error e) : b.start p = b.clearDone.raise e := by
  rw [Block.start, h]

theorem Block.start_ok {p : Params} {b : Block} {c : ClockConfig}
    (h : validate p true b.clearDone = .ok c) : b.start p = b.clearDone.beginRun p c := by
  rw [Block.start, h]

/-- A run begins with `BUSY` for a duration that is not 0, and with `DONE` for the duration 0 (R341). -/
theorem Block.beginRun_of_idle {p : Params} {b : Block} (hidle : b.busy = false) (c : ClockConfig) :
    b.clearDone.beginRun p c =
      { b.loadClock c with
        runCf := cfgCf b.cfg, runUbe := effectiveUb b.ub b.field1, runBgf := bgfFlags b.bgf
        runSr := b.sampleRate, runN := b.duration, samples := 0, frames := 0
        pol := p.refPolarity, level := p.refPolarity
        busy := decide (b.duration.toNat ≠ 0), done := decide (b.duration.toNat = 0) } := by
  have hbusy : (if b.duration = 0 then b.busy else true) = decide (b.duration.toNat ≠ 0) := by
    simp [hidle, ← BitVec.toNat_inj]
  have hdone : (if b.duration = 0 then true else false) = decide (b.duration.toNat = 0) := by
    simp [← BitVec.toNat_inj]
  rw [← hbusy, ← hdone]
  rfl

/-- Settles O26: the word of START decodes to it, and the block of a run that begins is the loaded one
with the snapshot, whose operands are the fields of the registers. -/
theorem startBeginsRun : Obligations.StartBeginsRun := by
  refine ⟨fun s => (commandFormatsAgree s 0x00000001).1 .start (by decide), fun s hidle hpass => ?_⟩
  obtain ⟨r, hr, hstart⟩ := exec_start_pass hidle hpass
  refine ⟨r, hr, ?_⟩
  rw [hstart, Block.beginRun_of_idle (b := s.blk.clearReject) hidle, ← effectiveUb_eq_ube,
    ← bgfFlags_eq_bitsAt]
  rfl

/-- Settles O27: validation answers the first check that fails, and the acceptance of START asks for no
run in progress. -/
theorem startFailsOrIsRejected : Obligations.StartFailsOrIsRejected := by
  refine fun s => ⟨fun hidle hfail => ?_, fun hbusy => ?_⟩
  · obtain ⟨e, herror, hcode, hkind⟩ := validate_error (b := s.blk.clearReject.clearDone) hfail
    rw [exec_start_idle hidle, Block.start_error herror, Block.raise, hcode, hkind]
    rfl
  · have hcode : acceptCode 0x01 0x00 0x0000 s.blk = 1 := by rw [acceptCode_start, hbusy]; rfl
    rw [exec, execStart, Block.issue_reject hcode (by decide)]
    rfl

/-! ### EMIT -/

theorem exec_emit_enabled {s : State} (hbusy : s.blk.busy = true) (hready : s.sink.ready = true) :
    exec .emit s = .next s.emitSample := by
  rw [exec, execEmit, if_pos (s.emitEnabled_iff.mpr ⟨hbusy, hready⟩)]

theorem exec_emit_disabled {s : State} (h : s.blk.busy = false ∨ s.sink.ready = false) :
    exec .emit s = .next s := by
  have hoff : ¬ s.emitEnabled = true := by
    rw [s.emitEnabled_iff]
    rintro ⟨hbusy, hready⟩
    obtain h | h := h
    · exact Bool.false_ne_true (h.symm.trans hbusy)
    · exact Bool.false_ne_true (h.symm.trans hready)
  rw [exec, execEmit, if_neg hoff]

/-- The turns of EMIT's loop, of the model and of the statements (R345). -/
theorem Block.nextFrames_eq_iterate (p : Params) (n : Nat) (b : Block) :
    b.nextFrames p n = (emitTurn p)^[n] b := by
  induction n generalizing b with
  | zero => rfl
  | succ n ih => exact ih (b.nextFrame p)

/-- Settles O47: an EMIT that is enabled is one sample, of the block after the turns of its loop. -/
theorem emitProducesOneSample : Obligations.EmitProducesOneSample := by
  refine fun s => ⟨fun hbusy hready => ?_, exec_emit_disabled⟩
  dsimp only
  rw [exec_emit_enabled hbusy hready, ← Block.nextFrames_eq_iterate, State.emitSample,
    Block.assembleThrough, Block.countSample_eq hbusy]
  simp only [decide_not]
  rfl

/-- The sample an EMIT counts, and what it does to the run (R345, R350). -/
theorem State.emitSample_counts {s : State} (hbusy : s.blk.busy = true) :
    s.emitSample.blk.samples = s.blk.samples + 1 ∧ s.emitSample.blk.runN = s.blk.runN ∧
      s.emitSample.blk.busy = decide (s.blk.samples + 1 ≠ s.blk.runN.toNat) ∧
      s.emitSample.blk.done = (s.blk.done || decide (s.blk.samples + 1 = s.blk.runN.toNat)) := by
  simp only [State.emitSample, Block.assembleThrough, Block.countSample_eq hbusy,
    State.emitLevel_fields, State.setBlk_fields, and_self]

/-! ### How a run ends -/

/-- The EMIT of the last sample completes the run (R350). -/
theorem State.emitSample_last {s : State} (hbusy : s.blk.busy = true)
    (hlast : s.blk.samples + 1 = s.blk.runN.toNat) :
    s.emitSample.blk.samples = s.emitSample.blk.runN.toNat ∧ s.emitSample.blk.busy = false ∧
      s.emitSample.blk.done = true := by
  obtain ⟨hsamples, hn, hbusy', hdone⟩ := State.emitSample_counts hbusy
  rw [hsamples, hn, hbusy', hdone]
  simp [hlast]

/-- No command ends a run: those with a body that writes `BUSY` are not accepted during one (R176). -/
theorem Block.command_busy {b : Block} (hbusy : b.busy = true) (p : Params) (v : Word) :
    (b.command p v).busy = true := by
  have hnot : ¬ b.busy = false := by simp [hbusy]
  obtain ⟨_, -, -, e⟩ | ⟨-, e⟩ | ⟨-, hidle, -⟩ | ⟨-, hidle, -⟩ | ⟨-, hidle, -⟩ | ⟨-, hidle, -⟩ |
    ⟨_, -, e⟩ := Block.command_cases p v b
  · rw [e]; exact hbusy
  · rw [e]; exact hbusy
  · exact absurd hidle hnot
  · exact absurd hidle hnot
  · exact absurd hidle hnot
  · exact absurd hidle hnot
  · rw [e]; exact hbusy

@[simp] theorem Block.writeWord_busy (b : Block) (off : Offset) (v : Word) :
    (b.writeWord off v).busy = b.busy := by
  rw [Block.writeWord_frame]

/-- An EMIT ends a run only with its last sample (R350). -/
theorem execEmit_ends_run {s t : State} (h : exec .emit s = .next t) (hbusy : s.blk.busy = true)
    (hover : t.blk.busy = false) :
    s.sink.ready = true ∧ s.blk.samples + 1 = s.blk.runN.toNat ∧ t = s.emitSample := by
  obtain ⟨-, e⟩ | ⟨-, hready, e⟩ := execEmit_cases s <;> obtain rfl := next_injective (h.symm.trans e)
  · exact absurd (hover.symm.trans hbusy) Bool.false_ne_true
  · obtain ⟨-, -, hbusy', -⟩ := State.emitSample_counts hbusy
    exact ⟨hready, not_not.mp (of_decide_eq_false (hbusy'.symm.trans hover)), rfl⟩

/-- Settles O48, by the cases of a step: of those with the reset input low, only an EMIT can clear
`BUSY` during a run. -/
theorem runEndsOnlyByLastSampleOrReset : Obligations.RunEndsOnlyByLastSampleOrReset := by
  refine ⟨fun s hbusy hready hlast =>
    ⟨_, exec_emit_enabled hbusy hready, State.emitSample_last hbusy hlast⟩,
    fun s t hstep hbusy hover => ?_⟩
  have hends : t.blk.busy ≠ s.blk.busy := by simp [hbusy, hover]
  obtain ⟨-, rfl⟩ | ⟨x, rest, hpending, hx⟩ := step_cases hstep
  · exact absurd rfl hends
  refine ⟨x, rest, hpending, ?_⟩
  obtain ⟨hreset, -⟩ | ⟨-, ⟨-, rfl⟩ | ⟨hengine, hemit⟩ | ⟨_, rfl⟩ | ⟨v, -, rfl⟩ | ⟨off, v, -, rfl⟩⟩ := hx
  · exact .inl hreset
  · exact absurd rfl hends
  · obtain ⟨hready, hlast, rfl⟩ := execEmit_ends_run hemit hbusy hover
    obtain ⟨hsamples, -, hdone⟩ := State.emitSample_last (s := s.reach x rest) hbusy hlast
    exact .inr ⟨hengine, hready, hlast, hsamples, hdone⟩
  · exact absurd rfl hends
  · exact absurd ((Block.command_busy hbusy _ v).trans hbusy.symm) hends
  · exact absurd (Block.writeWord_busy _ off v) hends

/-! ### Reset -/

/-- Settles O11: the step is the reset of the state at that instant. -/
theorem resetLeavesTheAgents : Obligations.ResetLeavesTheAgents := by
  intro s ready req rest hpending
  exact ⟨_, step_reset hpending rfl, rfl, rfl, rfl, rfl, rfl⟩

end Sys2Proof.Machine
end

section
/-!
PROOF. Whole runs (spec/45_waveform_generation.md R340 to R352): the engine's turns after a START, and
the pure functions of the snapshot they compute.
-/

namespace Sys2Proof.Machine

open Sys2Proof.Claims

/-! ### The run's stream, frame by frame -/

/-- The polarity recurrence of the bit stream is that of its frames (R300, R302). -/
theorem RunSnapshot.polAtBit_frameAt (x : RunSnapshot) (k : Nat) {i : Nat} (hi : i ≤ 80) :
    polAtBit (x.frameAt k) (x.polBefore (80 * k)) i = x.polBefore (80 * k + i) := by
  induction i with
  | zero => exact polAtBit_zero _ _
  | succ i ih =>
    have hbit : x.bitAt (80 * k + i) = (x.frameAt k).getLsbD i := by
      rw [RunSnapshot.bitAt, show (80 * k + i) / 80 = k by omega, show (80 * k + i) % 80 = i by omega]
    rw [polAtBit_succ, ih (by omega), ← hbit]
    rfl

/-- The polarity handed over from a frame is the one before bit 0 of the next (R309, R347). -/
theorem RunSnapshot.endPol_frameAt (x : RunSnapshot) (k : Nat) :
    endPol (x.frameAt k) (x.polBefore (80 * k)) = x.polBefore (80 * (k + 1)) :=
  x.polAtBit_frameAt k (Nat.le_refl 80)

/-- A half-bit of the stream is the half-bit at its position in its frame (R301, R308). -/
theorem RunSnapshot.halfLevel_frameAt (x : RunSnapshot) (j : Nat) :
    halfLevel x.params.bmc (x.frameAt (j / 160)) (x.polBefore (80 * (j / 160))) (j % 160) =
      x.halfBitLevel j := by
  have hbit : j / 2 = 80 * (j / 160) + j % 160 / 2 := by omega
  have hframe : j / 2 / 80 = j / 160 := by omega
  have hpos : j / 2 % 80 = j % 160 / 2 := by omega
  have hhalf : j % 160 % 2 = j % 2 := by omega
  rw [halfLevel, RunSnapshot.halfBitLevel, RunSnapshot.bitAt, x.polAtBit_frameAt _ (by omega), ← hbit,
    hframe, hpos, hhalf]

/-- Sample `i` of a run, with its PCM value (R310, R349). -/
def RunSnapshot.sampleAt (x : RunSnapshot) (i : Nat) : Sample where
  level := x.sampleLevel i
  pcm := pcmOfLevel (x.sampleLevel i)

/-- The first `k` samples of a run, in order. -/
def RunSnapshot.firstSamples (x : RunSnapshot) (k : Nat) : List Sample := (List.range k).map x.sampleAt

theorem RunSnapshot.firstSamples_level (x : RunSnapshot) (k : Nat) :
    (x.firstSamples k).map Sample.level = (List.range k).map x.sampleLevel := by
  rw [RunSnapshot.firstSamples, List.map_map]
  rfl

theorem RunSnapshot.firstSamples_succ (x : RunSnapshot) (k : Nat) :
    x.firstSamples (k + 1) = x.firstSamples k ++ [x.sampleAt k] := by
  simp [RunSnapshot.firstSamples, List.range_succ]

/-- The frames assembled for `k` samples, of a run's sample rate (R351). -/
theorem framesFor_pos (r : Rate) {sr : Nat} (h : 0 < sr) (k : Nat) :
    framesFor r sr k = if k = 0 then 0 else (k - 1) * gridD r / gridK r sr / 160 + 1 := by
  rw [framesFor, halfBitOf_pos r h]

/-! ### The frames a block has assembled -/

/-- The block is in the run `x`: its clock is the start timecode advanced once a frame assembled, and
it holds the last of them, with the polarity before its bit 0 (R346, R347). -/
structure Block.InRun (x : RunSnapshot) (b : Block) : Prop where
  snapshot_eq : b.snapshot x.params = { x with tc := x.tcAt b.frames }
  pol_eq : b.pol = x.polBefore (80 * (b.frames - 1))
  frame_eq : 0 < b.frames → b.frame = x.frameAt (b.frames - 1)

section
variable {x : RunSnapshot} {b : Block}

/-- The clock is the start timecode advanced once a frame assembled (R351). -/
theorem Block.InRun.clk_eq (h : b.InRun x) : b.clk = x.tcAt b.frames :=
  congrArg RunSnapshot.tc h.snapshot_eq

/-- The polarity handed over to the next frame is the one before its bit 0 (R347). -/
theorem Block.InRun.handoff (h : b.InRun x) : b.handoff = x.polBefore (80 * b.frames) := by
  rw [Block.handoff, h.pol_eq]
  cases hframes : b.frames with
  | zero => rfl
  | succ k =>
    rw [if_pos (Nat.succ_pos k), h.frame_eq (by omega), hframes]
    exact x.endPol_frameAt k

/-- The frame a turn assembles is the first of the run its block would begin (R345). -/
theorem Block.nextFrame_frame (p : Params) (b : Block) :
    (b.nextFrame p).frame = (b.snapshot p).frameAt 0 := by
  rw [RunSnapshot.frameAt, RunSnapshot.tcAt]
  rfl

theorem RunSnapshot.frameAt_zero_of_tcAt (x : RunSnapshot) (k : Nat) :
    RunSnapshot.frameAt { x with tc := x.tcAt k } 0 = x.frameAt k := by
  rw [RunSnapshot.frameAt, RunSnapshot.tcAt, RunSnapshot.frameAt]

/-- A turn of EMIT's loop assembles the run's next frame (R345, R346). -/
theorem Block.InRun.nextFrame (h : b.InRun x) : (b.nextFrame x.params).InRun x := by
  have hsnapshot : (b.nextFrame x.params).snapshot x.params =
      { x with tc := x.tcAt (b.frames + 1) } :=
    congrArg (fun y : RunSnapshot => { y with tc := y.tcAt 1 }) h.snapshot_eq
  have hframe : (b.nextFrame x.params).frame = x.frameAt b.frames := by
    rw [Block.nextFrame_frame, h.snapshot_eq, RunSnapshot.frameAt_zero_of_tcAt]
  have hframes : (b.nextFrame x.params).frames = b.frames + 1 := rfl
  have hpol : (b.nextFrame x.params).pol = x.polBefore (80 * b.frames) := h.handoff
  constructor <;> rw [hframes]
  · exact hsnapshot
  · rw [hpol, Nat.add_sub_cancel]
  · rw [hframe, Nat.add_sub_cancel]
    exact fun _ => rfl

/-- Of a block that has assembled up to its frame, a half-bit has the level of the run's (R345). -/
theorem Block.InRun.levelAt (h : b.InRun x) {j : Nat} (hframes : b.frames = j / 160 + 1) :
    b.levelAt x.params j = x.halfBitLevel j := by
  rw [Block.levelAt, h.pol_eq, h.frame_eq (by omega), hframes, Nat.add_sub_cancel, x.halfLevel_frameAt]

end

/-! ### The block after `k` samples -/

/-- The block after `k` samples of the run `x`, with no command since its START: what is assembled and
counted, and that nothing is reported (R345, R351, R352). -/
structure Block.AfterSamples (x : RunSnapshot) (k : Nat) (b : Block) : Prop where
  inRun : b.InRun x
  sr_pos : 0 < x.sr
  frames_eq : b.frames = framesFor x.rate x.sr k
  samples_eq : b.samples = k
  busy_eq : b.busy = decide (k < x.n)
  done_eq : b.done = decide (k = x.n)
  level_eq : 0 < k → b.level = x.sampleLevel (k - 1)
  clkValid : b.clkValid = true
  noReport : b.errKind = 0 ∧ b.errCode = 0 ∧ b.reject = false ∧ b.rejCode = 0

section
variable {x : RunSnapshot} {k : Nat} {b : Block}

/-- A START that passes validation begins the run of its snapshot, at sample 0 (R341). -/
theorem Block.beginRun_afterSamples (p : Params) (hidle : b.busy = false) (c : ClockConfig)
    (hsr : b.sampleRate ≠ 0) :
    Block.AfterSamples ((b.clearReject.clearDone.beginRun p c).snapshot p) 0
      (b.clearReject.clearDone.beginRun p c) := by
  have hpos : 0 < b.sampleRate.toNat := Nat.pos_of_ne_zero fun h0 => hsr (BitVec.eq_of_toNat_eq h0)
  rw [Block.beginRun_of_idle (b := b.clearReject) hidle]
  refine
    { inRun := ⟨rfl, rfl, fun h => absurd h (Nat.lt_irrefl 0)⟩
      sr_pos := hpos, frames_eq := rfl, samples_eq := rfl, busy_eq := ?_, done_eq := ?_
      level_eq := fun h => absurd h (Nat.lt_irrefl 0)
      clkValid := rfl, noReport := ⟨rfl, rfl, rfl, rfl⟩ }
  · exact decide_eq_decide.mpr Nat.pos_iff_ne_zero.symm
  · exact decide_eq_decide.mpr eq_comm

theorem Block.AfterSamples.halfBit (h : b.AfterSamples x k) : b.halfBit = halfBitOf x.rate x.sr k := by
  rw [← h.samples_eq]
  exact congrArg (fun y : RunSnapshot => halfBitOf y.rate y.sr b.samples) h.inRun.snapshot_eq

theorem Block.AfterSamples.runN (h : b.AfterSamples x k) : b.runN.toNat = x.n :=
  congrArg RunSnapshot.n h.inRun.snapshot_eq

/-- After the last sample `STATUS` has `DONE` alone (R352). -/
theorem Block.AfterSamples.statusWord_last (h : b.AfterSamples x x.n) : statusWord b = 0x00000002 := by
  have hbusy : b.busy = false := h.busy_eq.trans (decide_eq_false (Nat.lt_irrefl _))
  have hdone : b.done = true := h.done_eq.trans (decide_eq_true rfl)
  obtain ⟨hkind, hcode, hreject, hrejCode⟩ := h.noReport
  rw [statusWord, hkind, hcode, hreject, hrejCode, hbusy, hdone]
  rfl

/-- For the next sample the frames up to its own are assembled (R345). -/
theorem Block.AfterSamples.assembleThrough (h : b.AfterSamples x k) :
    (b.assembleThrough x.params (b.halfBit / 160)).InRun x ∧
      (b.assembleThrough x.params (b.halfBit / 160)).frames = b.halfBit / 160 + 1 := by
  have hle := framesFor_le x.rate h.sr_pos k
  rw [← h.frames_eq, ← h.halfBit] at hle
  refine ⟨Block.nextFrames_induct (P := Block.InRun x) (fun _ => Block.InRun.nextFrame) _ h.inRun, ?_⟩
  rw [Block.assembleThrough, Block.nextFrames_frames]
  omega

/-- The next sample is the run's, and the run is over with the last one (R345, R350). -/
theorem Block.AfterSamples.countSample (h : b.AfterSamples x k) (hk : k < x.n) :
    ((b.assembleThrough x.params (b.halfBit / 160)).countSample (x.sampleLevel k)).AfterSamples x
      (k + 1) := by
  obtain ⟨hrun, hframes⟩ := h.assembleThrough
  have hcounted : Block.InRun x
      ((b.assembleThrough x.params (b.halfBit / 160)).countSample (x.sampleLevel k)) :=
    ⟨hrun.snapshot_eq, hrun.pol_eq, hrun.frame_eq⟩
  have hbusy : b.busy = true := h.busy_eq.trans (decide_eq_true hk)
  have hdone : b.done = false := h.done_eq.trans (decide_eq_false hk.ne)
  rw [h.halfBit, ← framesFor_succ] at hframes
  rw [h.halfBit] at hcounted ⊢
  unfold Block.assembleThrough at hcounted hframes ⊢
  rw [Block.countSample_eq hbusy] at hcounted ⊢
  refine
    { inRun := hcounted, sr_pos := h.sr_pos, frames_eq := hframes
      samples_eq := congrArg (· + 1) h.samples_eq, busy_eq := ?_, done_eq := ?_
      level_eq := fun _ => rfl, clkValid := h.clkValid, noReport := h.noReport } <;>
    dsimp only <;> rw [h.samples_eq, h.runN]
  · exact decide_eq_decide.mpr (by omega)
  · rw [hdone, Bool.false_or]

/-- The level EMIT emits next is the run's (R310, R345). -/
theorem Block.AfterSamples.levelAt (h : b.AfterSamples x k) :
    (b.assembleThrough x.params (b.halfBit / 160)).levelAt x.params b.halfBit = x.sampleLevel k := by
  obtain ⟨hrun, hframes⟩ := h.assembleThrough
  rw [hrun.levelAt hframes, h.halfBit, RunSnapshot.sampleLevel]

end

/-! ### The engine's turns -/

/-- The engine's turn at an instant with a ready sink. -/
def State.engineTurn (s : State) : State :=
  if s.blk.busy then (reached s true s.pending).emitSample else reached s true s.pending

/-- The step at an engine's turn with a ready sink (R14, R345). -/
theorem step_withEngine (s : State) (n : Nat) (rest : List Instant) :
    step (withEngine s (n + 1) rest) = .next (withEngine s.engineTurn n rest) := by
  have hpending : (withEngine s (n + 1) rest).pending =
      instant true .engine :: (List.replicate n engineInstant ++ rest) := rfl
  rw [step_instant hpending, serve_engine, State.engineTurn]
  cases hbusy : s.blk.busy with
  | false =>
    exact exec_emit_disabled (.inl hbusy)
  | true =>
    exact exec_emit_enabled hbusy rfl

/-- `k` engine turns with a ready sink complete. -/
theorem run_withEngine (s : State) (k : Nat) (rest : List Instant) :
    Host.Core.run Sys2Proof.core k (withEngine s k rest) =
      .next (withEngine (State.engineTurn^[k] s) 0 rest) := by
  induction k generalizing s with
  | zero => rfl
  | succ k ih => exact (core_run_succ k (step_withEngine s k rest)).trans (ih s.engineTurn)

/-- The state `u` has delivered `k` samples of the run `x` since the state `t`. -/
structure State.Delivered (u : State) (x : RunSnapshot) (t : State) (k : Nat) : Prop where
  params_eq : u.params = x.params
  blk : u.blk.AfterSamples x k
  accepted_eq : u.sink.accepted = t.sink.accepted ++ x.firstSamples k
  output_eq : u.output = t.output ++ (x.firstSamples k).map Sample.level

section
variable {x : RunSnapshot} {t u : State} {k : Nat}

/-- An EMIT of the run delivers its next sample (R345, R348, R349). -/
theorem State.Delivered.emitSample (h : u.Delivered x t k) (hk : k < x.n) :
    u.emitSample.Delivered x t (k + 1) := by
  have hemit : u.emitSample =
      (u.setBlk ((u.blk.assembleThrough x.params (u.blk.halfBit / 160)).countSample
        (x.sampleLevel k))).emitLevel (x.sampleLevel k) := by
    rw [← h.blk.levelAt, ← h.params_eq]
    rfl
  rw [hemit]
  refine ⟨h.params_eq, h.blk.countSample hk, ?_, ?_⟩
  · rw [x.firstSamples_succ, ← List.append_assoc, ← h.accepted_eq]
    rfl
  · rw [x.firstSamples_succ, List.map_append, ← List.append_assoc, ← h.output_eq]
    rfl

/-- A turn delivers the next sample while there is one (R345, R350). -/
theorem State.Delivered.engineTurn (h : u.Delivered x t k) (hk : k ≤ x.n) :
    u.engineTurn.Delivered x t (min (k + 1) x.n) := by
  have hreached : (reached u true u.pending).Delivered x t k :=
    ⟨h.params_eq, h.blk, h.accepted_eq, h.output_eq⟩
  have hbusy := h.blk.busy_eq
  obtain hlt | rfl := Nat.lt_or_eq_of_le hk
  · rw [State.engineTurn, if_pos (hbusy.trans (decide_eq_true hlt)), Nat.min_eq_left hlt]
    exact hreached.emitSample hlt
  · have hover : ¬ u.blk.busy = true := by simp [hbusy]
    rw [State.engineTurn, if_neg hover, Nat.min_eq_right (Nat.le_succ _)]
    exact hreached

/-- The engine's turns deliver the run's samples, up to the last (R345 to R350). -/
theorem State.iterate_engineTurn_delivered (hparams : t.params = x.params)
    (hstart : t.blk.AfterSamples x 0) (k : Nat) :
    (State.engineTurn^[k] t).Delivered x t (min k x.n) := by
  induction k with
  | zero =>
    rw [Nat.zero_min]
    exact ⟨hparams, hstart, (List.append_nil _).symm, (List.append_nil _).symm⟩
  | succ k ih =>
    have hturn := ih.engineTurn (Nat.min_le_right k x.n)
    rw [Function.iterate_succ_apply']
    rwa [show min (min k x.n + 1) x.n = min (k + 1) x.n by omega] at hturn

end

/-- Where no run is in progress the engine's turns deliver nothing (R345). -/
theorem State.iterate_engineTurn_idle {t : State} (hidle : t.blk.busy = false) (k : Nat) :
    (State.engineTurn^[k] t).blk = t.blk ∧
      (State.engineTurn^[k] t).sink.accepted = t.sink.accepted ∧
      (State.engineTurn^[k] t).output = t.output := by
  induction k with
  | zero => exact ⟨rfl, rfl, rfl⟩
  | succ k ih =>
    have hstill : ¬ (State.engineTurn^[k] t).blk.busy = true := by simp [ih.1, hidle]
    rw [Function.iterate_succ_apply', State.engineTurn, if_neg hstill]
    exact ih

/-! ### Runs from START -/

/-- What START does where no run is in progress: it reports the failing check and begins no run, or it
begins the run of its snapshot (R341, R384). -/
theorem exec_start_cases {s t : State} (hidle : s.blk.busy = false) (h : exec .start s = .next t) :
    (∃ e, validate s.params true s.blk = .error e ∧ t.blk.errKind = e.kind ∧ t.blk.errCode = e.code ∧
        t.blk.busy = false) ∨
      ∃ c, validate s.params true s.blk = .ok c ∧ t.blk.errKind = 0 ∧ t.blk.errCode = 0 ∧
        t.blk.snapshot t.params =
          { params := s.params, rate := c.rate, df := c.df, cf := cfgCf s.blk.cfg
            ube := effectiveUb s.blk.ub s.blk.field1, bgf := bgfFlags s.blk.bgf
            sr := s.blk.sampleRate.toNat, n := s.blk.duration.toNat, tc := c.tc } ∧
        t.blk.AfterSamples (t.blk.snapshot t.params) 0 := by
  obtain rfl := next_injective ((exec_start_idle hidle).symm.trans h)
  obtain ⟨e, he⟩ | ⟨c, hc, -, -, -, -, -, hsr⟩ := validate_cases s.params true s.blk
  · refine .inl ⟨e, he, ?_⟩
    simp only [State.setBlk_fields, Block.start_error (b := s.blk.clearReject) he]
    exact ⟨rfl, rfl, hidle⟩
  · refine .inr ⟨c, hc, ?_⟩
    simp only [State.setBlk_fields, Block.start_ok (b := s.blk.clearReject) hc]
    exact ⟨rfl, rfl, rfl, Block.beginRun_afterSamples s.params hidle c (hsr rfl)⟩

theorem ValError.kind_ne_zero (e : ValError) : e.kind ≠ 0 := by
  cases e <;> decide

/-- After a START that passes validation, `k` engine turns with a ready sink deliver the first `k`
samples of its run, or all of them (R345 to R350). -/
theorem exec_start_delivers {s t : State} (hidle : s.blk.busy = false) (h : exec .start s = .next t)
    (hpass : t.blk.errKind = 0) (k : Nat) :
    (State.engineTurn^[k] t).Delivered (t.blk.snapshot t.params) t
      (min k (t.blk.snapshot t.params).n) := by
  obtain ⟨e, -, hkind, -⟩ | ⟨-, -, -, -, -, hstart⟩ := exec_start_cases hidle h
  · exact absurd (hkind.symm.trans hpass) e.kind_ne_zero
  · exact State.iterate_engineTurn_delivered rfl hstart k

/-- A START that leaves `BUSY` begins a run of at least one sample (R341), of which `k` engine turns with
a ready sink deliver `k` samples, up to its duration. -/
theorem exec_start_busy {s t : State} (hidle : s.blk.busy = false) (h : exec .start s = .next t)
    (hbusy : t.blk.busy = true) :
    0 < (t.blk.snapshot t.params).n ∧ ∀ k, k ≤ (t.blk.snapshot t.params).n →
      (State.engineTurn^[k] t).Delivered (t.blk.snapshot t.params) t k := by
  obtain ⟨-, -, -, -, hnone⟩ | ⟨-, -, hpass, -, -, hstart⟩ := exec_start_cases hidle h
  · exact absurd (hnone.symm.trans hbusy) Bool.false_ne_true
  · refine ⟨of_decide_eq_true (hstart.busy_eq.symm.trans hbusy), fun k hk => ?_⟩
    have hrun := exec_start_delivers hidle h hpass k
    rwa [Nat.min_eq_left hk] at hrun

/-- Settles O49: the state after the turns has delivered `k` samples of the run that START began. -/
theorem runEmitsSampleLevels : Obligations.RunEmitsSampleLevels := by
  intro s t k rest hidle hexec hbusy hk x
  have hrun := (exec_start_busy hidle hexec hbusy).2 k hk
  have hblk := hrun.blk
  refine ⟨_, run_withEngine t k rest, ?_, ?_, rfl, hblk.samples_eq, hblk.busy_eq, hblk.done_eq, ?_,
    hblk.inRun.clk_eq, hblk.inRun.pol_eq, fun hpos => ⟨?_, ?_⟩⟩
  · rw [← x.firstSamples_level]
    exact hrun.output_eq
  · rw [← x.firstSamples_level, ← List.map_append]
    exact congrArg (List.map Sample.level) hrun.accepted_eq
  · exact hblk.frames_eq.trans (framesFor_pos x.rate hblk.sr_pos k)
  · refine hblk.inRun.frame_eq ?_
    rw [hblk.frames_eq, framesFor, if_neg hpos.ne']
    exact Nat.succ_pos _
  · exact hblk.level_eq hpos

/-- Settles O50: the state after as many turns as the duration has delivered all samples of the run. -/
theorem runEndState : Obligations.RunEndState := by
  intro s t rest hidle hexec hbusy x frames
  obtain ⟨hn, hdeliver⟩ := exec_start_busy hidle hexec hbusy
  have hrun := hdeliver x.n le_rfl
  have hblk := hrun.blk
  have hframes : (State.engineTurn^[x.n] t).blk.frames = frames := by
    rw [hblk.frames_eq, framesFor_pos _ hblk.sr_pos, if_neg hn.ne']
  refine ⟨_, run_withEngine t x.n rest, hblk.samples_eq, hframes, ?_, hblk.clkValid, ?_,
    hblk.level_eq hn, hblk.statusWord_last⟩
  · rw [← hframes]
    exact hblk.inRun.clk_eq
  · rw [← hframes]
    exact hblk.inRun.frame_eq (by rw [hframes]; exact Nat.succ_pos _)

/-! ### What a run is a function of -/

/-- Two states whose engine turns add the same samples. -/
theorem sameSamples_of_iterate {k : Nat} {t t' : State} (new : List Sample)
    (h : (State.engineTurn^[k] t).sink.accepted = t.sink.accepted ++ new ∧
      (State.engineTurn^[k] t).output = t.output ++ new.map Sample.level)
    (h' : (State.engineTurn^[k] t').sink.accepted = t'.sink.accepted ++ new ∧
      (State.engineTurn^[k] t').output = t'.output ++ new.map Sample.level) : sameSamples k t t' :=
  ⟨_, _, new, run_withEngine t k [], run_withEngine t' k [], h.1, h'.1, h.2, h'.2⟩

/-- Two runs of equal snapshots (R340). -/
theorem sameSamples_of_snapshot_eq {s s' t t' : State} {k : Nat} (hidle : s.blk.busy = false)
    (hidle' : s'.blk.busy = false) (h : exec .start s = .next t) (h' : exec .start s' = .next t')
    (hpass : t.blk.errKind = 0) (hpass' : t'.blk.errKind = 0)
    (hsnapshot : t.blk.snapshot t.params = t'.blk.snapshot t'.params) : sameSamples k t t' := by
  have hrun := exec_start_delivers hidle h hpass k
  have hrun' := exec_start_delivers hidle' h' hpass' k
  rw [← hsnapshot] at hrun'
  exact sameSamples_of_iterate _ ⟨hrun.accepted_eq, hrun.output_eq⟩
    ⟨hrun'.accepted_eq, hrun'.output_eq⟩

/-- Two states with no run in progress: no sample is delivered. -/
theorem sameSamples_of_idle {t t' : State} (k : Nat) (hidle : t.blk.busy = false)
    (hidle' : t'.blk.busy = false) : sameSamples k t t' := by
  obtain ⟨-, hsink, houtput⟩ := State.iterate_engineTurn_idle hidle k
  obtain ⟨-, hsink', houtput'⟩ := State.iterate_engineTurn_idle hidle' k
  exact sameSamples_of_iterate [] (by simp [hsink, houtput]) (by simp [hsink', houtput'])

/-- Validation looks at three registers (R201). -/
theorem validate_congr (p : Params) (needSR : Bool) {b b' : Block} (hcfg : b.cfg = b'.cfg)
    (htc : b.tcStart = b'.tcStart) (hsr : b.sampleRate = b'.sampleRate) :
    validate p needSR b = validate p needSR b' := by
  rw [validate, validate, hcfg, htc, hsr]

/-- Settles O51: the samples of a run are those of its snapshot; and the registers START reads settle
what validation answers and what the snapshot is. -/
theorem runIsFunctionOfConfiguration : Obligations.RunIsFunctionOfConfiguration := by
  intro s s' t t' k hidle hidle' h h'
  refine ⟨sameSamples_of_snapshot_eq hidle hidle' h h',
    fun hparams hcfg htc hub hfield1 hbgf hsr hn => ?_⟩
  have hvalidate : validate s'.params true s'.blk = validate s.params true s.blk := by
    rw [← hparams, validate_congr _ _ hcfg.symm htc.symm hsr.symm]
  obtain ⟨e, he, hkind, hcode, hnone⟩ | ⟨c, hc, hkind, hcode, hsnapshot, -⟩ :=
      exec_start_cases hidle h <;>
    obtain ⟨e', he', hkind', hcode', hnone'⟩ | ⟨c', hc', hkind', hcode', hsnapshot', -⟩ :=
      exec_start_cases hidle' h'
  · obtain rfl : e' = e := Except.error.inj (he'.symm.trans (hvalidate.trans he))
    exact ⟨hkind.trans hkind'.symm, hcode.trans hcode'.symm,
      fun hpass => absurd (hkind.symm.trans hpass) e'.kind_ne_zero,
      sameSamples_of_idle k hnone hnone'⟩
  · exact nomatch he.symm.trans (hvalidate.symm.trans hc')
  · exact nomatch hc.symm.trans (hvalidate.symm.trans he')
  · obtain rfl : c' = c := Except.ok.inj (hc'.symm.trans (hvalidate.trans hc))
    have hequal : t.blk.snapshot t.params = t'.blk.snapshot t'.params := by
      rw [hsnapshot, hsnapshot', hparams, hcfg, hub, hfield1, hbgf, hsr, hn]
    exact ⟨hkind.trans hkind'.symm, hcode.trans hcode'.symm, fun _ => hequal,
      sameSamples_of_snapshot_eq hidle hidle' h h' hkind hkind' hequal⟩

end Sys2Proof.Machine
end

section
/-!
PROOF. The exceptions (spec/60_exceptions.md): which steps can write the error fields (R383), and a
START against the EMIT that completes a run (R394).
-/

namespace Sys2Proof.Machine

/-! ### The error fields -/

/-- `ERR_KIND` with `ERR_CODE`: whatever writes one of them writes the other too (R383). -/
def Block.errorFields (b : Block) : BitVec 2 × BitVec 4 := (b.errKind, b.errCode)

theorem Block.errorFields_ne_iff (b b' : Block) :
    b'.errorFields ≠ b.errorFields ↔ b'.errKind ≠ b.errKind ∨ b'.errCode ≠ b.errCode := by
  rw [Block.errorFields, Block.errorFields, Ne, Prod.mk_inj, not_and_or]

/-- Of the commands only an accepted START or TC_LOAD writes the error fields (R177, R383): a rejection
and the other four bodies leave them. -/
theorem Block.command_errorFields {p : Params} {v : Word} {b : Block}
    (h : (b.command p v).errorFields ≠ b.errorFields) :
    b.busy = false ∧ (v = 0x00000001 ∨ v = 0x00000002) := by
  obtain ⟨_, -, -, e⟩ | ⟨-, e⟩ | ⟨hv, hidle, -⟩ | ⟨hv, hidle, -⟩ | ⟨-, -, -, e⟩ | ⟨-, -, -, e⟩ |
    ⟨_, -, e⟩ := Block.command_cases p v b
  · exact absurd (congrArg Block.errorFields e) h
  · exact absurd (congrArg Block.errorFields e) h
  · exact ⟨hidle, .inl hv⟩
  · exact ⟨hidle, .inr hv⟩
  · exact absurd (congrArg Block.errorFields e) h
  · exact absurd (congrArg Block.errorFields e) h
  · exact absurd (congrArg Block.errorFields e) h

/-- The error fields are not among the registers a write stores (R84, R93). -/
theorem Block.writeWord_errorFields (b : Block) (off : Offset) (v : Word) :
    (b.writeWord off v).errorFields = b.errorFields := by
  rw [Block.writeWord_frame]
  rfl

/-- A sample leaves the error fields: neither its frames nor its count write them (R345). -/
theorem State.emitSample_errorFields (s : State) :
    s.emitSample.blk.errorFields = s.blk.errorFields := by
  rw [State.emitSample, Block.assembleThrough, Block.nextFrames_frame]
  rfl

theorem execEmit_errorFields {s t : State} (h : exec .emit s = .next t) :
    t.blk.errorFields = s.blk.errorFields := by
  obtain ⟨-, e⟩ | ⟨-, -, e⟩ := execEmit_cases s <;> obtain rfl := next_injective (h.symm.trans e)
  · rfl
  · exact State.emitSample_errorFields s

/-- Settles O28, by the cases of a step: of those with the reset input low, only a command can write
the error fields. -/
theorem errorFieldsStayUntilValidation : Obligations.ErrorFieldsStayUntilValidation := by
  intro s t hstep hchange
  rw [← Block.errorFields_ne_iff] at hchange
  obtain ⟨-, rfl⟩ | ⟨x, rest, hpending, hx⟩ := step_cases hstep
  · exact absurd rfl hchange
  refine ⟨x, rest, hpending, ?_⟩
  obtain ⟨hreset, -⟩ | ⟨-, ⟨-, rfl⟩ | ⟨-, hemit⟩ | ⟨_, rfl⟩ | ⟨v, hrequest, rfl⟩ | ⟨off, v, -, rfl⟩⟩ := hx
  · exact .inl hreset
  · exact absurd rfl hchange
  · exact absurd (execEmit_errorFields hemit) hchange
  · exact absurd rfl hchange
  · obtain ⟨hidle, hv⟩ := Block.command_errorFields hchange
    exact .inr ⟨hidle, v, hv, hrequest⟩
  · exact absurd (Block.writeWord_errorFields _ off v) hchange

/-! ### START and the last EMIT -/

/-- Settles O54: before the last EMIT the run is in progress, and that EMIT clears `BUSY`, so the START
after it is accepted. -/
theorem startAgainstLastEmit : Obligations.StartAgainstLastEmit := by
  intro s t u hbusy hready hlast hemit hstart
  obtain rfl := next_injective ((exec_emit_enabled hbusy hready).symm.trans hemit)
  obtain ⟨-, hidle, -⟩ := State.emitSample_last hbusy hlast
  obtain rfl := next_injective ((exec_start_idle hidle).symm.trans hstart)
  exact ⟨(startFailsOrIsRejected s).2 hbusy, Block.start_reject _ _⟩

end Sys2Proof.Machine
end

section
/-!
PROOF. Reset (spec/70_reset_and_hazards.md): the block after a reset step and what a read of it returns
(R430), and what START and TC_LOAD do straight after it (R432).
-/

namespace Sys2Proof.Machine

open Sys2Proof.Claims

/-! ### What reads return after reset -/

/-- No flag and no code is set, so `STATUS` reads 0 (R430). -/
theorem Block.atReset_status (p : Params) : (Block.atReset p).readWord 0x04 = 0 := by
  rw [Block.readWord_eq (off := 0x04) _ .status rfl]
  exact BitVec.eq_of_toNat_eq (statusWord_toNat _)

/-- The clock is not loaded and stands at 0, so `TC_NOW` reads 0 (R430). -/
theorem Block.atReset_tcNow (p : Params) : (Block.atReset p).readWord 0x28 = 0 := by
  have hclock : wordOfTc false ⟨0, 0, 0, 0⟩ = 0 := by decide
  rw [Block.readWord_eq (off := 0x28) _ .tcNow rfl]
  exact hclock

/-- `LEVEL` reads the level the block resets to (R430). -/
theorem Block.atReset_level (p : Params) :
    ((Block.atReset p).readWord 0x40).toNat = p.refPolarity.toNat := by
  rw [Block.readWord_eq (off := 0x40) _ .level rfl]
  exact Block.readReg_level_toNat _

/-- Settles O10: the step is the reset of the state at that instant, and the views are those of the
block at its reset values. -/
theorem resetStepSetsEveryElement : Obligations.ResetStepSetsEveryElement := by
  intro s ready req rest hpending
  exact ⟨_, step_reset hpending rfl, rfl, rfl, Block.atReset_status _, Block.atReset_tcNow _,
    Block.atReset_level _⟩

/-! ### START and TC_LOAD straight after reset -/

/-- Of the reset values the sample rate is the first that fails a check (R201, R432). -/
theorem validation_atReset_start (p : Params) : validation p true (Block.atReset p) = 3 := by
  simp [validation, Block.atReset, bitsAt]

/-- With no sample rate asked for, the reset values pass (R201, R432). -/
theorem validation_atReset_tcLoad (p : Params) : validation p false (Block.atReset p) = 0 := by
  simp [validation, Block.atReset, bitsAt, nominalOfSel]

/-- A clock loaded from the reset values is what it was but for its valid flag: 00:00:00:00 at 24 fps,
non-drop, with no error and no rejection to clear (R63, R432). -/
theorem loaded_atReset (p : Params) :
    loaded (Block.atReset p) .fps24 = { Block.atReset p with clkValid := true } := by
  simp [loaded, startTc, Block.atReset, bitsAt]

/-- Settles O12: START fails at the sample rate, and TC_LOAD passes and loads the timecode, rate and drop
mode the clock has. -/
theorem commandsRightAfterReset : Obligations.CommandsRightAfterReset := by
  intro s hblk
  have hidle : s.blk.busy = false := by rw [hblk]; rfl
  constructor
  · have hcode : validation s.params true s.blk = 3 := by rw [hblk, validation_atReset_start]
    rw [(startFailsOrIsRejected s).1 hidle (by rw [hcode]; decide), hcode, hblk]
    rfl
  · have hpass : validation s.params false s.blk = 0 := by rw [hblk, validation_atReset_tcLoad]
    have hcfg : s.blk.cfg = 0 := by rw [hblk]; rfl
    have hrate : Rate.fps24.sel.toNat = bitsAt s.blk.cfg 0 3 := by rw [hcfg]; decide
    rw [exec_tcLoad_pass hidle hpass hrate, hblk, loaded_atReset]

end Sys2Proof.Machine
end
